-- ==== Sys2Proof/Word.lean ====
section
/-! DEFINITION. The widths of the block's values (00_scope.md R7, R9): all unsigned, bit 0 the least
significant bit. -/

namespace Sys2Proof

/-- A 32-bit value: ACC, a TABLE entry, the `crc` port (R7, R20). -/
abbrev Word := BitVec 32

/-- An input element: one message byte, the `data` port (R7, R27). -/
abbrev Byte := BitVec 8

/-- Half of one byte, and an index into TABLE (R7, R12). -/
abbrev Nibble := BitVec 4

/-- The command selector, `cmd[9:8]` (R61). -/
abbrev OpField := BitVec 2

/-- A command word `cmd[9:0] = {op[1:0], data[7:0]}` (R60). -/
abbrev Command := BitVec 10

end Sys2Proof
end

