-- ==== Sys2Proof/Syntax.lean ====
section
/-! DEFINITION. The commands of the block: one constructor per row of spec/opcode_table.json
(30_encoding.md R63). -/

namespace Sys2Proof

/-- A decoded command (30_encoding.md R67). NOP and INIT carry no operand, because they ignore `data`
(R64; log entry 9). The reserved row keeps the whole word, because the refusal names it (R111). -/
inductive Instr where
  /-- `op = 00`: the idle command (41_commands.md R91). -/
  | nop
  /-- `op = 01`: start a message (41_commands.md R92). -/
  | init
  /-- `op = 10`: fold one message byte into ACC (41_commands.md R93). -/
  | update (b : Byte)
  /-- `op = 11`: names no command (30_encoding.md R65). `cmd` is the whole command word. -/
  | reserved (cmd : Command)
  deriving DecidableEq, Repr

end Sys2Proof
end

