-- ==== Sys2Proof/WellFormed.lean ====
section
/-! DEFINITION. Which terms of `Instr` stand for a command word. -/

namespace Sys2Proof

/-- The check on a term of `Instr`: a reserved word is one whose `op` field is 11 (30_encoding.md R63,
R65). Every byte is a legal operand of UPDATE (41_commands.md R93), and NOP and INIT have none. -/
def Instr.wellFormed : Instr → Bool
  | .nop => true
  | .init => true
  | .update _ => true
  | .reserved cmd => cmd.extractLsb' 8 2 == 0b11#2

end Sys2Proof
end

