-- ==== Sys2Proof/Decode.lean ====
section
/-! DEFINITION. The decoder, total on every 10-bit word (30_encoding.md R66, R67), the opcode table
(R63), and the encoder (R63, R64, R68). -/

namespace Sys2Proof

/-- `cmd[9:8]`, the command selector (R61). -/
def opField (cmd : Command) : OpField := cmd.extractLsb' 8 2

/-- `cmd[7:0]`, the byte operand (R61, R62). -/
def dataField (cmd : Command) : Byte := cmd.extractLsb' 0 8

/-- The decoder of R67. A reserved word is rejected under its own name. -/
def decode (cmd : Command) : Instr :=
  if opField cmd = 0b00#2 then .nop
  else if opField cmd = 0b01#2 then .init
  else if opField cmd = 0b10#2 then .update (dataField cmd)
  else .reserved cmd

/-- The word of a command (R63), with `data = 0x00` for NOP and INIT as the assembler writes them
(R64), and `0x200 + byte` for UPDATE (R68). -/
def encode : Instr → Command
  | .nop => 0x000#10
  | .init => 0x100#10
  | .update b => 0x200#10 + b.setWidth 10
  | .reserved cmd => cmd

/-- One row of the opcode table: a word `w` belongs to it when `w &&& mask = value` (R63). -/
structure OpcodeRow where
  /-- The row's name in spec/opcode_table.json. -/
  mnemonic : String
  /-- The row's "match". -/
  value : Command
  /-- The row's "mask". -/
  mask : Command
  deriving DecidableEq, Repr

/-- The table's row of a command (R63). -/
def Instr.row : Instr → OpcodeRow
  | .nop => ⟨"NOP", 0x000#10, 0x300#10⟩
  | .init => ⟨"INIT", 0x100#10, 0x300#10⟩
  | .update _ => ⟨"UPDATE", 0x200#10, 0x300#10⟩
  | .reserved _ => ⟨"(reserved)", 0x300#10, 0x300#10⟩

/-- Does the word belong to the row? -/
def OpcodeRow.covers (r : OpcodeRow) (cmd : Command) : Bool := cmd &&& r.mask == r.value

/-- The opcode table, in the order of spec/opcode_table.json (R63). -/
def opcodeTable : List OpcodeRow :=
  [Instr.nop.row, Instr.init.row, (Instr.update 0#8).row, (Instr.reserved 0x300#10).row]

/-- The command whose bits are `w`, numbered as spec/opcode_table.json numbers them. Every command is
10 bits long (R60), so a number that needs more bits is no command word, whatever `nbits` says
(log entry 14). -/
def decodeTableWord (_nbits w : Nat) : Option Instr :=
  if w < 1024 then some (decode (BitVec.ofNat 10 w)) else none

end Sys2Proof
end

