-- ==== Sys2Proof/Config.lean ====
section
/-! DEFINITION. The fixed constants of the block (00_scope.md R3, R7). The spec leaves no parameter to
the implementation (R7: "None is left to the implementation") and no value free that a step would have
to supply, so this file holds no opaque constant. TABLE stands in Machine/NibbleProcessor.lean. -/

namespace Sys2Proof

/-- The polynomial of the CRC (R3, R7), the x^32 term left implicit. -/
def Config.polynomial : Word := 0x04C11DB7#32

/-- The value ACC holds at the start of every message (R7, R22). -/
def Config.initialAcc : Word := 0xFFFFFFFF#32

end Sys2Proof
end

