-- ==== Sys2Proof/Machine/NibbleProcessor.lean ====
section
/-! DEFINITION. The sub-block `crc_nibble_processor`: the constant TABLE (10_state.md R24, R26) and the
nibble step (40_nibble_processor.md R80, R81), with the bit-serial register it is equal to (10_state.md
R25). No state, no clock, no reset. -/

namespace Sys2Proof.Machine

/-- TABLE, the constant 16 × 32 ROM: the literal values of 10_state.md R24. -/
def tableRom : Vector Word 16 := #v[
  0x00000000#32, 0x04C11DB7#32, 0x09823B6E#32, 0x0D4326D9#32,
  0x130476DC#32, 0x17C56B6B#32, 0x1A864DB2#32, 0x1E475005#32,
  0x2608EDB8#32, 0x22C9F00F#32, 0x2F8AD6D6#32, 0x2B4BCB61#32,
  0x350C9B64#32, 0x31CD86D3#32, 0x3C8EA00A#32, 0x384FBDBD#32]

/-- `TABLE[i]`: the read of one whole entry. Every 4-bit index names one (20_memory.md R40, R47). -/
def tableRead (i : Nibble) : Word := tableRom[i.toNat]'i.isLt

/-- The index of a nibble step: `c[31:28] ^ n[3:0]` (R81). -/
def nibbleIndex (c : Word) (n : Nibble) : Nibble := c.extractLsb' 28 4 ^^^ n

/-- `NIBBLE_STEP(c, n)`: `((c << 4)[31:0]) ^ TABLE[c[31:28] ^ n]` (R81). -/
def nibbleStep (c : Word) (n : Nibble) : Word := (c <<< 4) ^^^ tableRead (nibbleIndex c n)

/-- `RED1(v)`: one step of the MSB-first shift register (10_state.md R25; the reading is the spec's own,
decision D23, log entry 15). -/
def red1 (v : Word) : Word :=
  if v.getLsbD 31 then (v <<< 1) ^^^ Config.polynomial else v <<< 1

/-- `RED4(v)`: four of them (R25). -/
def red4 (v : Word) : Word := red1 (red1 (red1 (red1 v)))

/-- The nibble placed at the top of a 32-bit register: `{n[3:0], 28'b0}` (R25, R83). -/
def nibbleAtTop (n : Nibble) : Word := n ++ 0#28

end Sys2Proof.Machine
end

