-- ==== Sys2Proof/Machine/Operands.lean ====
section
/-! DEFINITION. The operand of UPDATE (30_encoding.md R62) and the byte step over it (41_commands.md
R94), and the host's masking of wider elements (70_reset_and_hazards.md R136). -/

namespace Sys2Proof.Machine

/-- `b[7:4]`, the source's "top 4 bits" of the byte (R62). -/
def highNibble (b : Byte) : Nibble := b.extractLsb' 4 4

/-- `b[3:0]`, the source's "low 4 bits" of the byte (R62). -/
def lowNibble (b : Byte) : Nibble := b.extractLsb' 0 4

/-- `BYTE_STEP(c, b)`: the high nibble first, then the low nibble with its index taken from the UPDATED
value (R94). -/
def byteStep (c : Word) (b : Byte) : Word :=
  nibbleStep (nibbleStep c (highNibble b)) (lowNibble b)

/-- The byte placed at the top of a 32-bit register: `{b, 24'b0}` (R94). -/
def byteAtTop (b : Byte) : Word := b ++ 0#24

/-- What the host presents for an element of a wider type: `element & 0xFF` (R136, 20_memory.md R48). -/
def hostByte (element : Nat) : Byte := BitVec.ofNat 8 (element &&& 0xFF)

end Sys2Proof.Machine
end

