-- ==== Sys2Proof/Machine/State.lean ====
section
/-! DEFINITION. State: everything the spec gives the machine (10_state.md R20, R33, R34; 60_exceptions.md
R111, R112), and the host's side of the ports (00_scope.md R6, 10_state.md R27), as plain data. -/

namespace Sys2Proof.Machine

/-- What ACC holds: `ACC ∈ {UNDEF} ∪ {0 .. 2^32 - 1}` (10_state.md R34). -/
inductive Acc where
  /-- `UNDEF`: no defined value, as from power-on until the first reset or INIT (R23; log entry 2). -/
  | undef
  /-- A 32-bit value. -/
  | val (w : Word)
  deriving DecidableEq, Repr

/-- Why a run stops with a fault. -/
inductive Fault where
  /-- The host reads `crc` while ACC is `UNDEF` (60_exceptions.md R112). Raised by `sampleCrc`, and by every
  later step of a run that recorded it. Safe: the chip returns some value that no rule fixes, and the model
  stops instead of naming one. -/
  | undefObserved
  deriving DecidableEq, Repr

/-- Why the model gives a step no meaning. -/
inductive Refusal where
  /-- `Reserved(cmd)`: a reserved word presented with `rst = 0` (60_exceptions.md R111). Raised by
  `execReserved`, and by every later step of a run that is marked. Safe: the hardware's effect is
  unspecified, and the model stops instead of choosing one. -/
  | reserved (cmd : Command)
  /-- An instruction without a meaning yet. No arm of `exec` raises it: every row has its meaning. Safe. -/
  | notModelled (mnemonic : String)
  deriving DecidableEq, Repr

/-- What the host does at one step: the values on the input ports at this rising edge (10_state.md R27), and
whether it reads `crc` before the edge (70_reset_and_hazards.md R140; log entry 3). -/
structure Inputs where
  /-- Synchronous reset, active high (R130). -/
  rst : Bool
  /-- The command selector, `cmd[9:8]` (R61). -/
  op : OpField
  /-- The byte operand, `cmd[7:0]` (R61). -/
  data : Byte
  /-- The host reads `crc`, between the step before and this one. -/
  readCrc : Bool
  deriving DecidableEq, Repr

/-- The machine and its host. -/
structure State where
  /-- The accumulator, the block's only register (10_state.md R20, R21). -/
  acc : Acc
  /-- The refusal mark (10_state.md R34, 60_exceptions.md R111): clear, or the refusal with its command word. -/
  refusalMark : Option Refusal
  /-- The fault record (60_exceptions.md R112, 70_reset_and_hazards.md R132): clear, or the fault. -/
  faultRecord : Option Fault
  /-- MODEL'S OWN: what the host presents at the coming steps, first to last (log entry 1). -/
  inputs : List Inputs
  /-- MODEL'S OWN: what the host has read from `crc`, oldest first (log entry 3). -/
  observed : List Word
  deriving DecidableEq, Repr

/-- The machine after a step with `rst = 1` (10_state.md R33, 70_reset_and_hazards.md R130), nothing refused,
nothing faulted, nothing read, and nothing yet chosen by the host (log entry 10). -/
def State.reset : State :=
  { acc := .val Config.initialAcc, refusalMark := none, faultRecord := none, inputs := [], observed := [] }

/-- The machine at power-on, before any step (10_state.md R23, R33): as `State.reset`, but ACC is `UNDEF`. -/
def State.powerOn : State := { State.reset with acc := .undef }

end Sys2Proof.Machine
end

