-- ==== Sys2Proof/Machine/Ops.lean ====
section
/-! DEFINITION. The named operations over ACC, the ports and the two records. The block has no memory that
is written (20_memory.md R40, R41) and no exception entry or return (60_exceptions.md R110, R116, R117), so
there is none to write here. -/

namespace Sys2Proof.Machine

/-- An outcome of this machine. -/
abbrev StepOutcome := Host.Outcome State Fault Refusal

/-- Go on from a next state; a stop stays as it is. -/
def andThen (o : StepOutcome) (f : State → StepOutcome) : StepOutcome :=
  match o with
  | .next s => f s
  | .fault r => .fault r
  | .refused r => .refused r

/-- The next state of an outcome, if it has one. -/
def nextState? (o : StepOutcome) : Option State :=
  match o with
  | .next s => some s
  | .fault _ => none
  | .refused _ => none

/-- The fault of an outcome, if it is one. -/
def fault? (o : StepOutcome) : Option Fault :=
  match o with
  | .next _ => none
  | .fault r => some r
  | .refused _ => none

/-- The refusal of an outcome, if it is one. -/
def refusal? (o : StepOutcome) : Option Refusal :=
  match o with
  | .next _ => none
  | .fault _ => none
  | .refused r => some r

/-! ACC -/

/-- The value a byte step leaves in ACC; `UNDEF` stays `UNDEF` (41_commands.md R93, R95). -/
def Acc.update (a : Acc) (b : Byte) : Acc :=
  match a with
  | .undef => .undef
  | .val c => .val (byteStep c b)

/-- `ACC <- a`. -/
def State.setAcc (s : State) (a : Acc) : State := { s with acc := a }

/-- `ACC <- 0xFFFFFFFF`: what INIT and reset do to ACC (41_commands.md R92, 70_reset_and_hazards.md R130). -/
def State.loadInitial (s : State) : State := s.setAcc (.val Config.initialAcc)

/-! The ports -/

/-- The `crc` output: always ACC, bit for bit (10_state.md R28). -/
def crcPort (s : State) : Acc := s.acc

/-- The command word on the ports: `{op, data}` (30_encoding.md R60, R61). -/
def Inputs.command (i : Inputs) : Command := i.op ++ i.data

/-- The step of a host with nothing to do: NOP, encoded as the assembler does, `rst = 0`
(30_encoding.md R60, R64). -/
def idleInputs : Inputs := { rst := false, op := 0b00#2, data := 0x00#8, readCrc := false }

/-- The input record that presents a command word with `rst = 0` and reads nothing. -/
def presentWord (cmd : Command) : Inputs :=
  { rst := false, op := opField cmd, data := dataField cmd, readCrc := false }

/-- What the host presents at the coming step; NOP when it has nothing to do (R60; log entry 1). -/
def State.nextInputs (s : State) : Inputs := s.inputs.headD idleInputs

/-- The state with the coming step's inputs taken. -/
def State.dropInputs (s : State) : State := { s with inputs := s.inputs.tail }

/-- The host reads `crc`, when `read` says so: it gets back ACC (70_reset_and_hazards.md R140), and a read
of an undefined ACC is the fault `UndefObserved` (60_exceptions.md R112). -/
def sampleCrc (read : Bool) (s : State) : StepOutcome :=
  if read then
    match crcPort s with
    | .undef => .fault .undefObserved
    | .val w => .next { s with observed := s.observed ++ [w] }
  else .next s

/-! The two records -/

/-- A run that is marked or has a fault stops at every later step, reset steps among them: neither record is
ever cleared (60_exceptions.md R111, R112; log entries 4 and 5). -/
def checkRecords (s : State) : StepOutcome :=
  match s.refusalMark, s.faultRecord with
  | some r, _ => .refused r
  | none, some f => .fault f
  | none, none => .next s

/-- Put a stop on record and go on with the run: a fault changes nothing else (60_exceptions.md R112, "The
hardware itself signals nothing"), a refusal leaves ACC without a defined value (R111, "It may change ACC to
any value or leave it"). A record already made is kept (log entry 6). -/
def recordOutcome (s : State) (o : StepOutcome) : State :=
  match o with
  | .next t => t
  | .fault f => { s with faultRecord := some (s.faultRecord.getD f) }
  | .refused r => { s with refusalMark := some (s.refusalMark.getD r), acc := .undef }

/-- The reset step (70_reset_and_hazards.md R130, R132): ACC is loaded and nothing else is touched. -/
def resetEdge (s : State) : StepOutcome := .next s.loadInitial

end Sys2Proof.Machine
end

