-- ==== Sys2Proof/Machine/Commands.lean ====
section
/-! DEFINITION. The meanings of the commands (41_commands.md R91 to R95, 60_exceptions.md R111): what a step
with `rst = 0` does after decoding. -/

namespace Sys2Proof.Machine

/-- NOP: `ACC <- ACC` (R91). -/
def execNop (s : State) : StepOutcome := .next (s.setAcc s.acc)

/-- INIT: `ACC <- 0xFFFFFFFF`, from any ACC, `UNDEF` included (R92). -/
def execInit (s : State) : StepOutcome := .next s.loadInitial

/-- UPDATE: `ACC <- BYTE_STEP(ACC, b)`; an undefined ACC stays undefined (R93, R94, R95). -/
def execUpdate (b : Byte) (s : State) : StepOutcome := .next (s.setAcc (s.acc.update b))

/-- A reserved word: "The model gives the step no meaning" and marks it `Reserved`, with the command word
(60_exceptions.md R111; 30_encoding.md R65; log entry 5). -/
def execReserved (cmd : Command) (_s : State) : StepOutcome := .refused (.reserved cmd)

end Sys2Proof.Machine
end

