-- ==== Sys2Proof/Machine/Edge.lean ====
section
/-! DEFINITION. One rising edge of `clk` (00_scope.md R11) with given inputs: the spec's
`step(ACC, rst, op, data)` of 41_commands.md R90. -/

namespace Sys2Proof.Machine

/-- Reset has priority, and then the command is not even decoded (41_commands.md R90, 60_exceptions.md R115,
30_encoding.md R67); else the decoded command is performed. -/
def commandEdge (i : Inputs) (s : State) : StepOutcome :=
  if i.rst then resetEdge s else exec (decode i.command) s

/-- One step with the host's inputs given, as 10_state.md R34 has them ("arguments of the step"): a run on
record stops; else the host's read of `crc`, if it makes one, then the edge. -/
def clockEdge (i : Inputs) (s : State) : StepOutcome :=
  andThen (checkRecords s) fun s₁ => andThen (sampleCrc i.readCrc s₁) (commandEdge i)

/-- The same step in a run that goes on past its stops and keeps them on record, as 60_exceptions.md R111 and
R112 and 95_test_vectors.md section 2.5 speak of it: the hardware itself does not stop (log entry 6). -/
def recordedEdge (i : Inputs) (s : State) : State :=
  recordOutcome (recordOutcome s (sampleCrc i.readCrc s))
    (commandEdge i (recordOutcome s (sampleCrc i.readCrc s)))

/-- The step of the whole machine: the engine takes what the host presents next. -/
def stepHost (s : State) : StepOutcome := clockEdge s.nextInputs s.dropInputs

/-- The state with the command word in the low ten bits of `w` as what the host presents at the coming step,
in place of what it would have presented there: `rst = 0`, and no read of `crc`. -/
def presentNext (s : State) (w : Nat) : State :=
  { s with inputs := presentWord (BitVec.ofNat 10 w) :: s.inputs.tail }

end Sys2Proof.Machine
end

