-- ==== Sys2Proof/Machine/Step.lean ====
section
/-! DEFINITION. The step of the machine, and how a command comes to be the one it takes. -/

namespace Sys2Proof.Machine

/-- One step: one rising edge of `clk` with what the host presents next (00_scope.md R11, 41_commands.md R90). -/
def step (s : State) : Host.Outcome State Fault Refusal := stepHost s

/-- `s` with the command whose bits are `w` as what the host presents at the next step. The block fetches no
commands (10_state.md R29), so this stands for the host's choice (log entry 1). The ports carry ten bits
(R27), so only the low ten bits of `w` reach them (log entry 14). -/
def State.withFetchWord (s : State) (_nbits w : Nat) : State := presentNext s w

end Sys2Proof.Machine
end

