-- ==== Sys2Proof/Machine/Message.lean ====
section
/-! DEFINITION. Messages: the checksum of a byte sequence, the runs of steps that compute it (41_commands.md
R96), and the pseudo-instruction CRCMSG (30_encoding.md R70). -/

namespace Sys2Proof.Machine

/-- `crc32_mpeg2(b0..bk-1)`: the fold of BYTE_STEP over the bytes from `0xFFFFFFFF` (R96). -/
def crc32Mpeg2 (bytes : List Byte) : Word := bytes.foldl byteStep Config.initialAcc

/-- The fold of BYTE_STEP over the bytes from an arbitrary accumulator value. -/
def foldBytes (c : Word) (bytes : List Byte) : Word := bytes.foldl byteStep c

/-- The four bytes of a word, most significant first (20_memory.md R45, 41_commands.md R102). -/
def bytesMsbFirst (w : Word) : List Byte :=
  [w.extractLsb' 24 8, w.extractLsb' 16 8, w.extractLsb' 8 8, w.extractLsb' 0 8]

/-- Do these inputs load `0xFFFFFFFF`: a reset step or INIT (R96 point 1)? -/
def startsMessage (i : Inputs) : Bool := i.rst || decide (decode i.command = .init)

/-- The message bytes of the steps after the first one, in order: UPDATEs give their byte, NOPs stand
anywhere, and no INIT, no `rst = 1` and no reserved word occurs (R96 points 2 and 3). -/
def messageBytes : List Inputs → Option (List Byte)
  | [] => some []
  | i :: rest =>
    if i.rst then none
    else match decode i.command with
      | .nop => messageBytes rest
      | .init => none
      | .update b => (messageBytes rest).map (b :: ·)
      | .reserved _ => none

/-- Do these inputs change nothing and read nothing: a NOP step on which `crc` is not read (R91, R100)? -/
def isIdle (i : Inputs) : Bool := !i.rst && !i.readCrc && decide (decode i.command = .nop)

/-- `CRCMSG b0, ..., bk-1`: INIT and then one UPDATE per byte (30_encoding.md R70). -/
def crcmsg (bytes : List Byte) : List Instr := .init :: bytes.map .update

/-- The input record that presents a command, encoded as the assembler encodes it, with `rst = 0`. -/
def presentInstr (i : Instr) : Inputs := presentWord (encode i)

end Sys2Proof.Machine
end

