-- ==== Sys2Proof/Machine/Assembler.lean ====
section
/-! DEFINITION. The assembler's line notation (30_encoding.md R68 to R70), over a line's characters: what the
host presents for a program that is written down. It is notation, not hardware; where R68 to R70 leave a point
of it open, log entry 13 says what is taken. -/

namespace Sys2Proof.Machine

/-- Why a line is no line of the notation. -/
inductive AsmError where
  /-- The first word is not `NOP`, `INIT`, `UPDATE` or `CRCMSG` (R68, R70). -/
  | unknownMnemonic
  /-- An operand is missing or is no literal of R69. -/
  | badLiteral
  /-- "A value outside 0 to 255 is an assembler error, not a silent mask" (R69). -/
  | outOfRange (value : Nat)
  /-- A character without an ASCII code (R69, R70). -/
  | notAscii
  /-- Something follows the command that is no comment. -/
  | trailing
  /-- `rst:` before the pseudo-instruction, which is more than one step. -/
  | resetBeforeCrcmsg
  deriving DecidableEq, Repr

/-- A blank of the notation. -/
def isBlank (c : Char) : Bool := c.toNat == 0x20 || c.toNat == 0x09

/-- The line after its leading blanks. -/
def skipBlanks : List Char → List Char
  | [] => []
  | c :: cs => if isBlank c then skipBlanks cs else c :: cs

/-- Is nothing left but blanks and a comment, which starts with `;` (R68; the blanks before it, log entry 13)? -/
def atEnd (cs : List Char) : Bool :=
  match skipBlanks cs with
  | [] => true
  | c :: _ => c.toNat == 0x3B

/-- The leading letters, in lower case ("mnemonics case-insensitive", R68), and what follows. -/
def readWord : List Char → List Char × List Char
  | [] => ([], [])
  | c :: cs =>
    if c.isAlpha then
      let (word, rest) := readWord cs
      (c.toLower :: word, rest)
    else ([], c :: cs)

/-- The value of a digit in a base up to 16. -/
def digitValue (base : Nat) (c : Char) : Option Nat :=
  let n := c.toNat
  let d := if n < 0x30 then base else if n ≤ 0x39 then n - 0x30
    else if n < 0x41 then base else if n ≤ 0x46 then n - 0x37
    else if n < 0x61 then base else if n ≤ 0x66 then n - 0x57 else base
  if d < base then some d else none

/-- The leading digits as a number, and what follows; `acc` is what was read so far. -/
def readNumber (base : Nat) : Option Nat → List Char → Option Nat × List Char
  | acc, [] => (acc, [])
  | acc, c :: cs =>
    match digitValue base c with
    | some d => readNumber base (some (acc.getD 0 * base + d)) cs
    | none => (acc, c :: cs)

/-- A number as an operand: a value outside 0 to 255 is an error (R69). -/
def checkByte (n : Nat) : Except AsmError Byte :=
  if n ≤ 255 then .ok (BitVec.ofNat 8 n) else .error (.outOfRange n)

/-- A character as an operand: its ASCII code (R69). -/
def charByte (c : Char) : Except AsmError Byte :=
  if c.toNat < 128 then .ok (BitVec.ofNat 8 c.toNat) else .error .notAscii

/-- A number literal that must have at least one digit. -/
def readByteNumber (base : Nat) (cs : List Char) : Except AsmError (Byte × List Char) :=
  match readNumber base none cs with
  | (none, _) => .error .badLiteral
  | (some n, rest) =>
    match checkByte n with
    | .ok b => .ok (b, rest)
    | .error e => .error e

/-- A byte literal: `'c'`, `0x` and hexadecimal digits, or decimal digits (R69). That the character between two
apostrophes is always the operand, be it `;`, which then starts no comment, an apostrophe or a blank, is the model's
choice (log entry 13). -/
def readLiteral (cs : List Char) : Except AsmError (Byte × List Char) :=
  match cs with
  | [] => .error .badLiteral
  | q :: tail =>
    if q.toNat = 0x27 then
      match tail with
      | c :: q' :: rest =>
        if q'.toNat = 0x27 then
          match charByte c with
          | .ok b => .ok (b, rest)
          | .error e => .error e
        else .error .badLiteral
      | _ => .error .badLiteral
    else
      match tail with
      | x :: digits =>
        if q.toNat = 0x30 ∧ x.toNat = 0x78 then readByteNumber 16 digits
        else readByteNumber 10 cs
      | [] => readByteNumber 10 cs

/-- The byte literals of `CRCMSG b0, b1, ...` (R70); `fuel` bounds their number. That blanks may stand before and
after each literal, and so before a comma, is the model's choice (log entry 13). -/
def readByteList : Nat → List Char → Except AsmError (List Byte × List Char)
  | 0, _ => .error .badLiteral
  | fuel + 1, cs =>
    match readLiteral (skipBlanks cs) with
    | .error e => .error e
    | .ok (b, rest) =>
      match skipBlanks rest with
      | [] => .ok ([b], [])
      | c :: more =>
        if c.toNat = 0x2C then
          match readByteList fuel more with
          | .ok (bs, rest') => .ok (b :: bs, rest')
          | .error e => .error e
        else .ok ([b], c :: more)

/-- The characters of a string literal up to its closing quote, as their codes (R70). That the next double quote
closes it, and that a `;` before that starts no comment, is the model's choice (log entry 13). -/
def readString : List Char → Except AsmError (List Byte × List Char)
  | [] => .error .badLiteral
  | c :: cs =>
    if c.toNat = 0x22 then .ok ([], cs)
    else
      match charByte c, readString cs with
      | .ok b, .ok (bs, rest) => .ok (b :: bs, rest)
      | .error e, _ => .error e
      | .ok _, .error e => .error e

/-- The operands of CRCMSG: none (k = 0), a string literal, or byte literals (R70). -/
def readMessage (cs : List Char) : Except AsmError (List Byte × List Char) :=
  if atEnd cs then .ok ([], cs)
  else
    match skipBlanks cs with
    | [] => .ok ([], [])
    | c :: rest => if c.toNat = 0x22 then readString rest else readByteList cs.length cs

/-- May this follow the word UPDATE or CRCMSG: a blank, before which no operand stands (the model's choice, log
entry 13), or the line's end or a comment, where there is no operand at all (R68, R70's k = 0)? -/
def operandMayFollow (cs : List Char) : Bool :=
  atEnd cs ||
    match cs with
    | [] => true
    | c :: _ => isBlank c

/-- One command, as the commands it stands for (R68, R70), and what follows it. -/
def readCommand (rst : Bool) (cs : List Char) : Except AsmError (List Instr × List Char) :=
  let (word, rest) := readWord cs
  if word = ['n', 'o', 'p'] then .ok ([.nop], rest)
  else if word = ['i', 'n', 'i', 't'] then .ok ([.init], rest)
  else if word = ['u', 'p', 'd', 'a', 't', 'e'] ∧ operandMayFollow rest then
    match readLiteral (skipBlanks rest) with
    | .ok (b, rest') => .ok ([.update b], rest')
    | .error e => .error e
  else if word = ['c', 'r', 'c', 'm', 's', 'g'] ∧ operandMayFollow rest then
    if rst then .error .resetBeforeCrcmsg
    else
      match readMessage rest with
      | .ok (bs, rest') => .ok (crcmsg bs, rest')
      | .error e => .error e
  else .error .unknownMnemonic

/-- The mark `rst:` at a line's start: the host holds `rst = 1` at this step (R68). That blanks may follow it and
none need to is the model's choice (log entry 13). -/
def readReset (cs : List Char) : Bool × List Char :=
  match cs with
  | 'r' :: 's' :: 't' :: ':' :: rest => (true, skipBlanks rest)
  | _ => (false, cs)

/-- One line as the steps it stands for: one per command. `rst:` alone presents NOP with `rst = 1`, and an
empty line or a comment is no step. That an empty line is no step, and that blanks may stand at the line's start
(before `rst:` or the mnemonic), at its end and before a comment, is the model's choice (log entry 13). -/
def assembleLine (line : List Char) : Except AsmError (List Inputs) :=
  let (rst, cs) := readReset (skipBlanks line)
  if atEnd cs then .ok (if rst then [{ idleInputs with rst := true }] else [])
  else
    match readCommand rst cs with
    | .error e => .error e
    | .ok (cmds, rest) =>
      if atEnd rest then .ok (cmds.map fun i => { presentInstr i with rst := rst })
      else .error .trailing

/-- A program, one line after the other (R68). -/
def assemble : List (List Char) → Except AsmError (List Inputs)
  | [] => .ok []
  | line :: lines =>
    match assembleLine line, assemble lines with
    | .ok is, .ok rest => .ok (is ++ rest)
    | .error e, _ => .error e
    | .ok _, .error e => .error e

end Sys2Proof.Machine
end

