-- ==== Sys2Proof/Safety.lean ====
section
/-! DEFINITION. What counts as a safe run, in the terms the statements use: runs of several steps, runs with
nothing on record, and the host's duties (70_reset_and_hazards.md R134, R139) that keep a run from stopping. -/

namespace Sys2Proof.Machine

/-- `n` steps, stopping at the first fault or refusal. -/
def runSteps : Nat → State → StepOutcome
  | 0, s => .next s
  | n + 1, s => andThen (step s) (runSteps n)

/-- Nothing is on record: no refusal mark and no fault (60_exceptions.md R111, R112). -/
def State.clear (s : State) : Bool := s.refusalMark.isNone && s.faultRecord.isNone

/-- ACC holds a value. -/
def State.accDefined (s : State) : Bool := decide (s.acc ≠ .undef)

/-- The invariant of a run that has been started: nothing on record, and ACC holds a value. -/
def State.started (s : State) : Bool := s.clear && s.accDefined

/-- May the host read `crc` at the coming step, if it means to (R134, R140)? -/
def State.readAllowed (s : State) : Bool := !s.nextInputs.readCrc || s.accDefined

/-- The state after the host's part of the coming step: its inputs are taken, and what it reads of a defined
ACC is noted (70_reset_and_hazards.md R140). -/
def State.afterHost (s : State) : State :=
  { s.dropInputs with
    observed := match s.nextInputs.readCrc, s.acc with
      | true, .val w => s.observed ++ [w]
      | _, _ => s.observed }

/-- The commands of a list, one after the other, stopping at the first that stops. -/
def execAll : List Instr → State → StepOutcome
  | [], s => .next s
  | i :: is, s => andThen (exec i s) (execAll is)

/-- What 41_commands.md R90 makes of ACC at one step, written over the ports and not over `decode` and `exec`.
A reserved word leaves no defined value (60_exceptions.md R111). -/
def accAfter (a : Acc) (i : Inputs) : Acc :=
  match i.rst, i.op with
  | true, _ => .val 0xFFFFFFFF#32
  | false, 0b00#2 => a
  | false, 0b01#2 => .val 0xFFFFFFFF#32
  | false, 0b10#2 => a.update i.data
  | false, _ => .undef

/-- The host's duties on which a stop depends, for the steps it is going to present: it reads `crc` only after
a reset or INIT since power-on (R134), and never presents `op = 11` with `rst = 0` (R139). `defined` says
whether ACC holds a value at the first of them. -/
def dutiesKept (defined : Bool) : List Inputs → Bool
  | [] => true
  | i :: rest =>
    (!i.readCrc || defined) && (i.rst || decide (i.op ≠ 0b11#2)) && dutiesKept (defined || startsMessage i) rest

/-- The run that goes on past its stops and keeps them on record, over the inputs the host presents. -/
def recordedRun (is : List Inputs) (s : State) : State := is.foldl (fun t i => recordedEdge i t) s

end Sys2Proof.Machine
end

