-- ==== Sys2Proof/Certificates/Slice0/Obligations.lean ====
section
/-! DEFINITION. The statements for the provers. Each docstring names the rule of spec/ it formalises; where the
spec itself marks a rule as its own derivation or as general knowledge, or where a log entry of the model is
rested on, it says so. -/

section
open Sys2Proof Sys2Proof.Machine

/-! ## Encoding (30_encoding.md) -/

/-- Words written out from 30_encoding.md R63 and 95_test_vectors.md sections 2.3, 2.5 and 3 decode to the
commands they stand for. -/
def Obligations.CommandWordsDecode : Prop :=
  decode 0b0000000000#10 = .nop ∧ decode 0b0010101011#10 = .nop ∧
  decode 0b0100000000#10 = .init ∧ decode 0b0101010101#10 = .init ∧
  decode 0b1000110001#10 = .update 0x31#8 ∧ decode 0b1011111111#10 = .update 0xFF#8 ∧
  decode 0b1100000000#10 = .reserved 0x300#10 ∧ decode 0b1110100101#10 = .reserved 0x3A5#10

/-- 30_encoding.md R63: the `op` field selects the command, through the rows' match and mask, and the `d` bits of
UPDATE are its operand. -/
def Obligations.OpFieldSelectsCommand : Prop :=
  ∀ cmd : Command,
    (opField cmd = 0b00#2 ↔ cmd &&& 0x300#10 = 0x000#10) ∧ (opField cmd = 0b00#2 → decode cmd = .nop) ∧
    (opField cmd = 0b01#2 ↔ cmd &&& 0x300#10 = 0x100#10) ∧ (opField cmd = 0b01#2 → decode cmd = .init) ∧
    (opField cmd = 0b10#2 ↔ cmd &&& 0x300#10 = 0x200#10) ∧
      (opField cmd = 0b10#2 → decode cmd = .update (cmd.extractLsb' 0 8)) ∧
    (opField cmd = 0b11#2 ↔ cmd &&& 0x300#10 = 0x300#10) ∧ (opField cmd = 0b11#2 → decode cmd = .reserved cmd)

/-- The classification of all 1024 words into 256 NOP, 256 INIT, 256 UPDATE (one per byte value) and 256 reserved
(30_encoding.md section 2; the spec marks it as derived from its opcode map). -/
def Obligations.AllWordsClassified : Prop :=
  ((List.range 1024).countP fun w => decode (BitVec.ofNat 10 w) == .nop) = 256 ∧
  ((List.range 1024).countP fun w => decode (BitVec.ofNat 10 w) == .init) = 256 ∧
  ((List.range 1024).countP fun w => decode (BitVec.ofNat 10 w) == .reserved (BitVec.ofNat 10 w)) = 256 ∧
  ∀ b : Byte, ∃ cmd : Command, decode cmd = .update b ∧ ∀ cmd' : Command, decode cmd' = .update b → cmd' = cmd

/-- Every word belongs to exactly one row of the opcode table, and it is the row of the command it decodes to
(30_encoding.md sections 1 and 2). -/
def Obligations.RowsDoNotOverlap : Prop :=
  ∀ cmd : Command,
    (opcodeTable.countP fun r => r.covers cmd) = 1 ∧ (decode cmd).row.covers cmd = true ∧
    (decode cmd).row ∈ opcodeTable

/-- 30_encoding.md R64: NOP and INIT ignore `data`, each has the 256 encodings of its `op`, and the assembler
writes `data = 0x00`. -/
def Obligations.NopAndInitIgnoreData : Prop :=
  (∀ cmd : Command, decode cmd = .nop ↔ ∃ data : Byte, cmd = 0b00#2 ++ data) ∧
  (∀ cmd : Command, decode cmd = .init ↔ ∃ data : Byte, cmd = 0b01#2 ++ data) ∧
  (∀ (i j : Inputs) (s : State), i.rst = j.rst → i.readCrc = j.readCrc → i.op = j.op →
    (i.op = 0b00#2 ∨ i.op = 0b01#2) → clockEdge i s = clockEdge j s) ∧
  encode .nop = 0x000#10 ∧ encode .init = 0x100#10

/-- Decoding an encoded well-formed command gives it back, for every command and every operand: no bit of an
encoding is dropped (30_encoding.md, its opcode map, decoder and assembler syntax). -/
def Obligations.DecodeOfEncode : Prop :=
  ∀ i : Instr, i.wellFormed = true → decode (encode i) = i

/-- The other direction: every word decodes to a well-formed command, and encoding that gives the word back, but
for the data bits that NOP and INIT ignore, which the assembler writes as 0 (30_encoding.md sections 2 and 3). -/
def Obligations.EncodeOfDecode : Prop :=
  ∀ cmd : Command,
    (decode cmd).wellFormed = true ∧
    encode (decode cmd) =
      (if opField cmd = 0b00#2 ∨ opField cmd = 0b01#2 then cmd &&& 0x300#10 else cmd)

/-- The assembler's words (30_encoding.md section 3): `NOP` is `0x000`, `INIT` is `0x100`, `UPDATE <byte>` is
`0x200 + byte`; five lines of the notation and the empty line stand for the steps given. Upper and lower case are
that section's own rule. That the empty line is no step, and where the blanks of the five lines stand, are the model's
choice (log entry 13). -/
def Obligations.AssemblerLines : Prop :=
  (presentInstr .nop).command = 0x000#10 ∧ (presentInstr .init).command = 0x100#10 ∧
  (∀ b : Byte, (presentInstr (.update b)).command = 0x200#10 + b.setWidth 10) ∧
  assembleLine ['U', 'P', 'D', 'A', 'T', 'E', ' ', '0', 'x', '0', '0'] = .ok [presentWord 0x200#10] ∧
  assembleLine ['u', 'p', 'd', 'a', 't', 'e', ' ', '2', '5', '5'] = .ok [presentWord 0x2FF#10] ∧
  assembleLine ['r', 's', 't', ':'] = .ok [{ presentWord 0x000#10 with rst := true }] ∧
  assembleLine ['r', 's', 't', ':', ' ', 'U', 'P', 'D', 'A', 'T', 'E', ' ', '0', 'x', '3', '2'] =
    .ok [{ presentWord 0x232#10 with rst := true }] ∧
  assembleLine ['N', 'O', 'P', ' ', ';', ' ', 'i', 'd', 'l', 'e'] = .ok [presentWord 0x000#10] ∧
  assembleLine [] = .ok []

/-- An operand outside 0 to 255 is an assembler error, not a silent mask, and one inside is the byte of that
value (30_encoding.md section 3). -/
def Obligations.OperandOutOfRangeIsError : Prop :=
  (∀ n : Nat, 255 < n → checkByte n = .error (.outOfRange n)) ∧
  (∀ n : Nat, n ≤ 255 → ∃ b : Byte, checkByte n = .ok b ∧ b.toNat = n)

/-- 30_encoding.md R70: `CRCMSG` expands to INIT and one UPDATE per byte in order, k + 1 commands, and a string
literal is taken as its characters' codes. -/
def Obligations.CrcmsgExpansion : Prop :=
  (∀ bytes : List Byte, crcmsg bytes = .init :: bytes.map .update ∧ (crcmsg bytes).length = bytes.length + 1) ∧
  assembleLine ['C', 'R', 'C', 'M', 'S', 'G', ' ', '"', '1', '2', '3', '4', '5', '6', '7', '8', '9', '"'] =
    .ok ([0x100#10, 0x231#10, 0x232#10, 0x233#10, 0x234#10, 0x235#10, 0x236#10, 0x237#10, 0x238#10,
      0x239#10].map presentWord) ∧
  assembleLine ['C', 'R', 'C', 'M', 'S', 'G', ' ', '0', 'x', '6', '1', ',', ' ', '9', '8'] =
    .ok ([0x100#10, 0x261#10, 0x262#10].map presentWord) ∧
  assembleLine ['C', 'R', 'C', 'M', 'S', 'G'] = .ok [presentWord 0x100#10]

/-! ## The step (41_commands.md section 1, 70_reset_and_hazards.md section 1) -/

/-- A step runs the decoded command: with nothing on record and `rst = 0`, `step` is `exec` of what the presented
word decodes to, with the inputs taken, and, where the host reads a defined ACC, the value noted first (41_commands.md
section 1; the moment of the read is log entry 3). -/
def Obligations.StepRunsDecodedCommand : Prop :=
  (∀ s : State, s.clear = true → s.nextInputs.rst = false → s.nextInputs.readCrc = false →
    step s = exec (decode s.nextInputs.command) { s with inputs := s.inputs.tail }) ∧
  (∀ (s : State) (c : Word), s.clear = true → s.nextInputs.rst = false → s.nextInputs.readCrc = true →
    s.acc = .val c →
    step s = exec (decode s.nextInputs.command)
      { s with inputs := s.inputs.tail, observed := s.observed ++ [c] })

/-- 41_commands.md R90: what the engine does at one step, from `rst`, `op` and `data` alone, in every state with nothing
on record. Said of the edge with its inputs given, as the rule has them; `StepRunsDecodedCommand` and `StepFrame` say
that `step` takes exactly one input record from the host. -/
def Obligations.EdgeFollowsPorts : Prop :=
  ∀ (s : State) (rst : Bool) (op : OpField) (data : Byte), s.clear = true →
    (rst = true → clockEdge ⟨rst, op, data, false⟩ s = .next { s with acc := .val 0xFFFFFFFF#32 }) ∧
    (rst = false →
      (op = 0b00#2 → clockEdge ⟨rst, op, data, false⟩ s = .next s) ∧
      (op = 0b01#2 → clockEdge ⟨rst, op, data, false⟩ s = .next { s with acc := .val 0xFFFFFFFF#32 }) ∧
      (op = 0b10#2 →
        (∀ c, s.acc = .val c →
          clockEdge ⟨rst, op, data, false⟩ s = .next { s with acc := .val (byteStep c data) }) ∧
        (s.acc = .undef → clockEdge ⟨rst, op, data, false⟩ s = .next s)) ∧
      (op = 0b11#2 → clockEdge ⟨rst, op, data, false⟩ s = .refused (.reserved (op ++ data))))

/-- 70_reset_and_hazards.md R130: a reset step loads ACC with `0xFFFFFFFF` and ignores `op` and `data`; it takes one
step, `crc` shows the value from then on, and the next step may present any command. -/
def Obligations.ResetStepLoadsAcc : Prop :=
  ∀ (s : State) (op : OpField) (data : Byte) (rest : List Inputs), s.clear = true →
    s.inputs = { rst := true, op := op, data := data, readCrc := false } :: rest →
    step s = .next { s with acc := .val 0xFFFFFFFF#32, inputs := rest } ∧
    crcPort { s with acc := .val 0xFFFFFFFF#32, inputs := rest } = .val 0xFFFFFFFF#32

/-- Reset has priority over the command of its step: the command has no influence at all, a reserved word not even
that of a refusal (60_exceptions.md section 2, its rule on simultaneous events). -/
def Obligations.ResetIgnoresCommand : Prop :=
  (∀ (s : State) (i j : Inputs) (rest : List Inputs), i.rst = true → j.rst = true → i.readCrc = j.readCrc →
    step { s with inputs := i :: rest } = step { s with inputs := j :: rest }) ∧
  (∀ (s : State) (data : Byte) (rest : List Inputs), s.clear = true →
    s.inputs = { rst := true, op := 0b11#2, data := data, readCrc := false } :: rest →
    ∃ t, step s = .next t ∧ t.refusalMark = none)

/-- A reset step and an INIT step have the same effect, and either starts a message (70_reset_and_hazards.md
section 1; the spec marks it as derived from its rules on reset and INIT). -/
def Obligations.ResetEqualsInit : Prop :=
  ∀ (s : State) (i j : Inputs) (rest : List Inputs), i.rst = true → j.rst = false → j.op = 0b01#2 →
    i.readCrc = j.readCrc →
    step { s with inputs := i :: rest } = step { s with inputs := j :: rest } ∧
    startsMessage i = true ∧ startsMessage j = true

/-- 70_reset_and_hazards.md R132: reset touches nothing but ACC; a mark and a fault on record stay. Said of
`recordedEdge`, the step that keeps its stops on record and goes on. -/
def Obligations.ResetKeepsRecords : Prop :=
  ∀ (s : State) (i : Inputs), i.rst = true → i.readCrc = false →
    recordedEdge i s = { s with acc := .val 0xFFFFFFFF#32 }

/-- The reset values (10_state.md section 5): ACC, `crc` and the refusal mark at power-on, after a reset step and after INIT (TABLE is a
constant, so that it is unchanged needs no clause). -/
def Obligations.ResetTable : Prop :=
  (State.powerOn.acc = .undef ∧ crcPort State.powerOn = State.powerOn.acc ∧ State.powerOn.refusalMark = none) ∧
  (∀ (s : State) (i : Inputs), i.rst = true → i.readCrc = false →
    (recordedEdge i s).acc = .val 0xFFFFFFFF#32 ∧ crcPort (recordedEdge i s) = .val 0xFFFFFFFF#32 ∧
    (recordedEdge i s).refusalMark = s.refusalMark) ∧
  (∀ (s : State) (i : Inputs), i.rst = false → i.op = 0b01#2 → i.readCrc = false →
    (recordedEdge i s).acc = .val 0xFFFFFFFF#32 ∧ crcPort (recordedEdge i s) = .val 0xFFFFFFFF#32 ∧
    (recordedEdge i s).refusalMark = s.refusalMark)

/-- With nothing to do the host presents NOP, so such a step changes nothing (30_encoding.md section 1). That an
empty list of inputs means a host with nothing to do is log entry 1, the model's choice. -/
def Obligations.IdleHostPresentsNop : Prop :=
  ∀ s : State, s.clear = true → s.inputs = [] → step s = .next s

/-! ## The commands (41_commands.md section 2) -/

/-- 41_commands.md R91: NOP leaves the whole state as it is, an undefined ACC among it, however often it comes. -/
def Obligations.NopKeepsState : Prop :=
  (∀ s : State, exec .nop s = .next s) ∧
  (∀ (n : Nat) (s : State), execAll (List.replicate n .nop) s = .next s) ∧
  (∀ data : Byte, decode (0b00#2 ++ data) = .nop)

/-- 41_commands.md R92: INIT loads `0xFFFFFFFF` from any ACC and changes nothing else; two INITs equal one. -/
def Obligations.InitLoadsAcc : Prop :=
  (∀ s : State, exec .init s = .next { s with acc := .val 0xFFFFFFFF#32 }) ∧
  (∀ s : State, execAll [.init, .init] s = exec .init s) ∧
  (∀ data : Byte, decode (0b01#2 ++ data) = .init) ∧ encode .init = 0x100#10

/-- 41_commands.md R93: UPDATE folds its byte into ACC by two table lookups in one step, and changes nothing else;
an undefined ACC stays undefined; a byte presented twice is folded in twice; the rule's corner cases and example. -/
def Obligations.UpdateFoldsByte : Prop :=
  (∀ (s : State) (c : Word) (b : Byte), s.acc = .val c →
    exec (.update b) s = .next { s with acc := .val (
      ((((c <<< 4) ^^^ tableRead (c.extractLsb' 28 4 ^^^ b.extractLsb' 4 4)) <<< 4) ^^^
        tableRead (((c <<< 4) ^^^ tableRead (c.extractLsb' 28 4 ^^^ b.extractLsb' 4 4)).extractLsb' 28 4 ^^^
          b.extractLsb' 0 4))) }) ∧
  (∀ (s : State) (b : Byte), s.acc = .undef → exec (.update b) s = .next s) ∧
  (∀ (s : State) (c : Word) (b : Byte), s.acc = .val c →
    execAll [.update b, .update b] s = .next { s with acc := .val (byteStep (byteStep c b) b) }) ∧
  (∀ b : Byte, decode (0x200#10 + b.setWidth 10) = .update b) ∧
  byteStep 0x00000000#32 0x00#8 = 0x00000000#32 ∧ byteStep 0xFFFFFFFF#32 0xFF#8 = 0xFFFFFF00#32 ∧
  byteStep 0xFFFFFFFF#32 0x31#8 = 0x9EFBCF93#32

/-- 41_commands.md R95: NOP and UPDATE leave an undefined ACC undefined; INIT and reset make it defined. -/
def Obligations.UndefinedAccStays : Prop :=
  ∀ s : State, s.acc = .undef →
    (∀ b : Byte, exec (.update b) s = .next s) ∧ exec .nop s = .next s ∧
    exec .init s = .next { s with acc := .val 0xFFFFFFFF#32 } ∧
    (∀ i : Inputs, i.rst = true → commandEdge i s = .next { s with acc := .val 0xFFFFFFFF#32 })

/-- 70_reset_and_hazards.md R139: a reserved word presented with `rst = 0` refuses the run, in every state with
nothing on record, under the name `Reserved` and with the whole word. -/
def Obligations.ReservedWordRefusesRun : Prop :=
  (∀ (cmd : Command) (s : State), exec (.reserved cmd) s = .refused (.reserved cmd)) ∧
  (∀ s : State, s.clear = true → s.nextInputs.readCrc = false → s.nextInputs.rst = false →
    s.nextInputs.op = 0b11#2 → step s = .refused (.reserved s.nextInputs.command))

/-- What every command leaves unchanged where `exec` gives a next state: the two records and the host's side, and
under NOP the accumulator too (10_state.md sections 1 and 4: no other state exists). -/
def Obligations.CommandFrame : Prop :=
  ∀ (i : Instr) (s t : State), exec i s = .next t →
    t.refusalMark = s.refusalMark ∧ t.faultRecord = s.faultRecord ∧ t.inputs = s.inputs ∧
    t.observed = s.observed ∧ (i = .nop → t.acc = s.acc)

/-- 60_exceptions.md R110: no command faults. NOP, INIT and UPDATE give a next state from every ACC and for every
byte, and nothing is recorded anywhere. -/
def Obligations.NoCommandFaults : Prop :=
  ∀ (i : Instr) (s : State), (i = .nop ∨ i = .init ∨ ∃ b, i = .update b) →
    ∃ t, exec i s = .next t ∧ t.faultRecord = s.faultRecord ∧ t.refusalMark = s.refusalMark

/-! ## The nibble processor (10_state.md section 3, 40_nibble_processor.md) -/

/-- 10_state.md R24: the sixteen entries of TABLE. -/
def Obligations.TableHoldsListedValues : Prop :=
  (List.range 16).map (fun i => tableRead (BitVec.ofNat 4 i)) =
    [0x00000000#32, 0x04C11DB7#32, 0x09823B6E#32, 0x0D4326D9#32, 0x130476DC#32, 0x17C56B6B#32, 0x1A864DB2#32,
     0x1E475005#32, 0x2608EDB8#32, 0x22C9F00F#32, 0x2F8AD6D6#32, 0x2B4BCB61#32, 0x350C9B64#32, 0x31CD86D3#32,
     0x3C8EA00A#32, 0x384FBDBD#32]

/-- The defining property of TABLE under the reading of "reduction" that the spec marks as general knowledge
(10_state.md section 3, its RED1 and RED4; decision D23; log entry 15). -/
def Obligations.TableIsBitSerialReduction : Prop :=
  ∀ i : Nibble, tableRead i = red4 (i ++ 0#28)

/-- 40_nibble_processor.md R81: the nibble step, its corner cases and its worked example. -/
def Obligations.NibbleStepShiftsAndLooksUp : Prop :=
  (∀ (c : Word) (n : Nibble), nibbleStep c n = (c <<< 4) ^^^ tableRead (c.extractLsb' 28 4 ^^^ n)) ∧
  (∀ (c : Word) (n : Nibble), c.extractLsb' 28 4 = n → nibbleStep c n = c <<< 4) ∧
  (∀ n : Nibble, nibbleStep 0#32 n = tableRead n) ∧ nibbleStep 0#32 0#4 = 0#32 ∧
  nibbleStep 0xFFFFFFFF#32 0x3#4 = 0xCAF36494#32

/-- 40_nibble_processor.md R82: computed in a wider integer, the nibble step needs exactly the masks of the source;
a shift right by 28 is already 4 bits, the byte ANDed with `0xF` is its low nibble, and the shift left keeps the
low 32 bits. -/
def Obligations.NibbleStepInWiderInteger : Prop :=
  (∀ c : Word, c.toNat >>> 28 < 16) ∧ (∀ b : Byte, (lowNibble b).toNat = b.toNat &&& 0xF) ∧
  (∀ b : Byte, (highNibble b).toNat = b.toNat >>> 4) ∧
  (∀ (c : Word) (n : Nibble), (nibbleStep c n).toNat =
    ((c.toNat <<< 4) &&& 0xFFFFFFFF) ^^^ (tableRead (BitVec.ofNat 4 ((c.toNat >>> 28) ^^^ n.toNat))).toNat)

/-- The nibble step is four steps of the bit-serial register with the nibble XORed into its top
(40_nibble_processor.md, its rule on the equivalence, which the spec marks as derived, over the reading of
log entry 15). -/
def Obligations.NibbleStepIsBitSerial : Prop :=
  ∀ (c : Word) (n : Nibble), nibbleStep c n = red4 (c ^^^ (n ++ 0#28))

/-- TABLE and the nibble step are linear over XOR (40_nibble_processor.md, its rule on linearity, which the spec marks
as derived). -/
def Obligations.NibbleStepIsLinear : Prop :=
  (∀ i j : Nibble, tableRead (i ^^^ j) = tableRead i ^^^ tableRead j) ∧
  (∀ (c₁ c₂ : Word) (n₁ n₂ : Nibble),
    nibbleStep (c₁ ^^^ c₂) (n₁ ^^^ n₂) = nibbleStep c₁ n₁ ^^^ nibbleStep c₂ n₂)

/-- 41_commands.md R94: the byte step takes the high nibble first and the second index from the updated value; it is
two four-step reductions, and eight bit-serial steps on `c ^ {b, 24'b0}`. -/
def Obligations.ByteStepIsEightBitSerialSteps : Prop :=
  ∀ (c : Word) (b : Byte),
    byteStep c b = nibbleStep (nibbleStep c (b.extractLsb' 4 4)) (b.extractLsb' 0 4) ∧
    byteStep c b = red4 (red4 (c ^^^ (b.extractLsb' 4 4 ++ 0#28)) ^^^ (b.extractLsb' 0 4 ++ 0#28)) ∧
    byteStep c b = red1^[8] (c ^^^ (b ++ 0#24))

/-- A byte equal to `ACC[31:24]` only shifts ACC by eight (95_test_vectors.md section 2.2, "byte equals ACC[31:24]:
shift by 8 only"), for every ACC. -/
def Obligations.OwnTopByteOnlyShifts : Prop :=
  ∀ c : Word, byteStep c (c.extractLsb' 24 8) = c <<< 8

/-- Under one byte two different ACC values stay different, so a difference once in ACC is never lost by later
UPDATEs (from the argument of 41_commands.md section 3 on single-bit sensitivity, point 3). -/
def Obligations.UpdateIsInjectiveInAcc : Prop :=
  ∀ (c c' : Word) (b : Byte), byteStep c b = byteStep c' b → c = c'

/-! ## Messages (41_commands.md section 3) -/

/-- 41_commands.md R97: the checksum of the empty message, as a fold and as a step of the machine. -/
def Obligations.EmptyMessageChecksum : Prop :=
  crc32Mpeg2 [] = 0xFFFFFFFF#32 ∧
  ∀ s : State, s.clear = true → s.readAllowed = true → startsMessage s.nextInputs = true →
    ∃ t, step s = .next t ∧ crcPort t = .val 0xFFFFFFFF#32

/-- 41_commands.md R98: the reference test vector. -/
def Obligations.ReferenceVector : Prop :=
  crc32Mpeg2 [0x31#8, 0x32#8, 0x33#8, 0x34#8, 0x35#8, 0x36#8, 0x37#8, 0x38#8, 0x39#8] = 0x0376E6E7#32

/-- 41_commands.md R96: from every state with nothing on record, a starting step (INIT or `rst = 1`) and then UPDATEs,
with NOPs anywhere after the first step, leave on `crc` the fold of BYTE_STEP over the bytes from `0xFFFFFFFF`, and it
stays there under further NOPs, which are steps of such a run too. The host may read `crc` at any step but, where ACC
is undefined, the first. -/
def Obligations.MessageChecksum : Prop :=
  ∀ (s : State) (start : Inputs) (tail rest : List Inputs) (bytes : List Byte),
    s.clear = true → s.readAllowed = true → s.inputs = start :: (tail ++ rest) →
    startsMessage start = true → messageBytes tail = some bytes →
    ∃ t, runSteps (tail.length + 1) s = .next t ∧ crcPort t = .val (bytes.foldl byteStep 0xFFFFFFFF#32) ∧
      crc32Mpeg2 bytes = bytes.foldl byteStep 0xFFFFFFFF#32 ∧ t.inputs = rest ∧ t.clear = true

/-- The prefix law (41_commands.md section 3, which the spec marks as derived): in the middle of a message `crc` shows
the checksum of the bytes so far, and presenting the remaining bytes then gives the checksum of the whole. -/
def Obligations.PrefixChecksum : Prop :=
  ∀ (s : State) (start : Inputs) (tail₁ tail₂ rest : List Inputs) (bytes₁ bytes₂ : List Byte),
    s.clear = true → s.readAllowed = true → s.inputs = start :: (tail₁ ++ (tail₂ ++ rest)) →
    startsMessage start = true → messageBytes tail₁ = some bytes₁ → messageBytes tail₂ = some bytes₂ →
    ∃ t u, runSteps (tail₁.length + 1) s = .next t ∧ crcPort t = .val (crc32Mpeg2 bytes₁) ∧
      runSteps tail₂.length t = .next u ∧ crcPort u = .val (crc32Mpeg2 (bytes₁ ++ bytes₂))

/-- 70_reset_and_hazards.md R142: each step takes one command and completes it, and a message of k bytes takes k + 1 steps
from its INIT or reset to a readable checksum, plus the NOP steps the host adds. -/
def Obligations.MessageTakesOneStepPerByte : Prop :=
  ∀ (s : State) (start : Inputs) (tail rest : List Inputs) (bytes : List Byte),
    s.clear = true → s.readAllowed = true → s.inputs = start :: (tail ++ rest) →
    startsMessage start = true → messageBytes tail = some bytes →
    ∃ t, runSteps (bytes.length + 1 + tail.countP fun i => decide (decode i.command = .nop)) s = .next t ∧
      crcPort t = .val (crc32Mpeg2 bytes) ∧ t.inputs = rest

/-- The steps that `CRCMSG` stands for compute the checksum of its bytes, from every state with nothing on record, in one
step per command (30_encoding.md section 3, 41_commands.md section 3). -/
def Obligations.CrcmsgComputesChecksum : Prop :=
  ∀ (s : State) (bytes : List Byte) (rest : List Inputs), s.clear = true →
    s.inputs = (crcmsg bytes).map presentInstr ++ rest →
    ∃ t, runSteps (bytes.length + 1) s = .next t ∧ crcPort t = .val (crc32Mpeg2 bytes) ∧ t.inputs = rest

/-- NOP steps can be taken out of, or put into, any run without changing its outcome (41_commands.md section 3,
determinism, which the spec marks as derived). -/
def Obligations.IdleStepsDropOut : Prop :=
  ∀ (s : State) (is : List Inputs), s.clear = true →
    runSteps is.length { s with inputs := is } =
      runSteps (is.filter fun i => !isIdle i).length { s with inputs := is.filter fun i => !isIdle i }

/-- Single-bit sensitivity (41_commands.md section 3, which the spec marks as derived): two messages of equal length
that differ in exactly one bit have different checksums. -/
def Obligations.SingleBitFlipChangesChecksum : Prop :=
  ∀ (before after : List Byte) (b : Byte) (k : Nat), k < 8 →
    crc32Mpeg2 (before ++ b :: after) ≠ crc32Mpeg2 (before ++ (b ^^^ (1#8 <<< k)) :: after)

/-- The residue law (41_commands.md section 3, which the spec marks as derived): a message followed by its own checksum,
most significant byte first, has checksum 0; the instance of the empty message is written out. -/
def Obligations.ResidueIsZero : Prop :=
  (∀ message : List Byte,
    crc32Mpeg2 (message ++
      [(crc32Mpeg2 message).extractLsb' 24 8, (crc32Mpeg2 message).extractLsb' 16 8,
       (crc32Mpeg2 message).extractLsb' 8 8, (crc32Mpeg2 message).extractLsb' 0 8]) = 0x00000000#32) ∧
  crc32Mpeg2 [0xFF#8, 0xFF#8, 0xFF#8, 0xFF#8] = 0x00000000#32

/-- What the host presents for an element of a wider type: only the low 8 bits matter (70_reset_and_hazards.md
section 3 and 20_memory.md section 3). -/
def Obligations.HostMasksElements : Prop :=
  (∀ e : Nat, (hostByte e).toNat = e % 256) ∧ (∀ e : Nat, hostByte e = hostByte (e &&& 0xFF)) ∧
  hostByte 0x131 = 0x31#8 ∧ hostByte 0xFF31 = 0x31#8

/-! ## `crc`, undefined values, records -/

/-- 10_state.md R28: `crc` is ACC, bit for bit, and it changes only at a step that writes ACC: at a NOP step it stays
(and the writing steps are reset, INIT and UPDATE). -/
def Obligations.CrcPortShowsAcc : Prop :=
  (∀ (s : State) (c : Word) (i : Nat), s.acc = .val c → ∃ w, crcPort s = .val w ∧ w.getLsbD i = c.getLsbD i) ∧
  (∀ s : State, crcPort s = s.acc) ∧
  (∀ s t : State, step s = .next t → crcPort t ≠ crcPort s →
    s.nextInputs.rst = true ∨ s.nextInputs.op = 0b01#2 ∨ s.nextInputs.op = 0b10#2)

/-- The host that reads `crc` gets back ACC as the step before left it (70_reset_and_hazards.md section 3, host table;
the moment of the read within the model's step is log entry 3). -/
def Obligations.ReadReturnsAcc : Prop :=
  ∀ (s : State) (c : Word), s.clear = true → s.acc = .val c → s.nextInputs.readCrc = true →
    (s.nextInputs.rst = true ∨ s.nextInputs.op ≠ 0b11#2) →
    ∃ t, step s = .next t ∧ t.observed = s.observed ++ [c]

/-- ACC is undefined at power-on, NOP and UPDATE steps leave it so for as long as only they are presented, and a read of
`crc` in that time is the fault `UndefObserved` (10_state.md section 2). That the read comes before the edge of its
step, and that the step is the fault also where it presents a reserved word with `rst = 0`, are the model's choice
(log entries 3 and 7). -/
def Obligations.AccUndefinedUntilStarted : Prop :=
  State.powerOn.acc = .undef ∧
  (∀ (s : State) (is rest : List Inputs), s.clear = true → s.acc = .undef → s.inputs = is ++ rest →
    (∀ i ∈ is, i.rst = false ∧ i.readCrc = false ∧ (i.op = 0b00#2 ∨ i.op = 0b10#2)) →
    ∃ t, runSteps is.length s = .next t ∧ t.acc = .undef ∧
      (t.nextInputs.readCrc = true → step t = .fault .undefObserved))

/-- Reading an undefined `crc` is the fault `UndefObserved`; a fault is never cleared, and a run with a fault never ends
with a next state (60_exceptions.md section 1, its rule on observing an undefined accumulator). The moment of the read
is the model's choice (log entry 3), and so are that the fault stops the run (log entry 4) and that the step is the fault
also where it presents a reserved word with `rst = 0` (log entry 7). -/
def Obligations.UndefinedReadFaults : Prop :=
  (∀ s : State, s.clear = true → s.acc = .undef → s.nextInputs.readCrc = true →
    step s = .fault .undefObserved) ∧
  (∀ (s : State) (i : Inputs), s.acc = .undef → i.readCrc = true →
    (recordedEdge i s).faultRecord = some .undefObserved) ∧
  (∀ (s : State) (i : Inputs) (f : Fault), s.faultRecord = some f → (recordedEdge i s).faultRecord = some f) ∧
  (∀ (s t : State) (f : Fault) (n : Nat), s.faultRecord = some f → runSteps (n + 1) s ≠ .next t)

/-- At a step with `rst = 0` and `op = 11` the model sets the mark `Reserved` with the command word; the mark is never
cleared, by any step or by reset; a marked run gives no next state at all; a step with `rst = 1` and `op = 11` is not
refused (60_exceptions.md section 1, its rule on reserved commands). That the first word stays in the mark after a second
reserved word is the model's choice (log entry 6), and so are that a marked state gives the refusal at every step (log
entry 5), with a fault on record too (log entry 7). -/
def Obligations.ReservedMarkStays : Prop :=
  (∀ (s : State) (i : Inputs), s.refusalMark = none → i.rst = false → i.op = 0b11#2 →
    (recordedEdge i s).refusalMark = some (.reserved (i.op ++ i.data))) ∧
  (∀ (s : State) (i : Inputs) (r : Refusal), s.refusalMark = some r → (recordedEdge i s).refusalMark = some r) ∧
  (∀ (s : State) (r : Refusal), s.refusalMark = some r → step s = .refused r) ∧
  (∀ (s : State) (i : Inputs), i.rst = true → (recordedEdge i s).refusalMark = s.refusalMark)

/-- After a reserved word ACC holds no defined value in the run that goes on (60_exceptions.md section 1: the hardware "may
change ACC to any value or leave it"; that the model holds this as `UNDEF` is log entry 6). -/
def Obligations.ReservedWordLeavesNoValue : Prop :=
  ∀ (s : State) (i : Inputs), i.rst = false → i.op = 0b11#2 → (recordedEdge i s).acc = .undef

/-- When a step stops: with nothing on record, it faults exactly when the host reads an undefined `crc`, and refuses
exactly when, without such a read, a reserved word is presented with `rst = 0` (60_exceptions.md section 1; that the
read comes first where both meet is log entry 7). -/
def Obligations.StepStopsExactlyWhen : Prop :=
  ∀ s : State, s.clear = true →
    ((∃ f, step s = .fault f) ↔ s.nextInputs.readCrc = true ∧ s.acc = .undef) ∧
    ((∃ r, step s = .refused r) ↔
      s.readAllowed = true ∧ s.nextInputs.rst = false ∧ s.nextInputs.op = 0b11#2)

/-- What a step leaves unchanged where it gives a next state: both records, and under NOP ACC (10_state.md sections 1 and
4); the host's list loses its first record only (the list is the model's choice, log entry 1); the host's readings grow by
the value ACC had before the edge, and only where the host reads (70_reset_and_hazards.md section 3, host table; that the
read comes before the edge and is kept is the model's choice, log entry 3). -/
def Obligations.StepFrame : Prop :=
  ∀ s t : State, step s = .next t →
    t.refusalMark = s.refusalMark ∧ t.faultRecord = s.faultRecord ∧ t.inputs = s.inputs.tail ∧
    (s.nextInputs.readCrc = false → t.observed = s.observed) ∧
    (s.nextInputs.readCrc = true → ∃ c, s.acc = .val c ∧ t.observed = s.observed ++ [c]) ∧
    (s.nextInputs.rst = false → s.nextInputs.op = 0b00#2 → t.acc = s.acc)

/-! ## Whole-machine statements -/

/-- 20_memory.md R51: ACC after step n is the result of steps 1 to n applied in order, from the state before step 1;
nothing but the command of each step changes it. -/
def Obligations.AccIsFoldOfSteps : Prop :=
  ∀ (s t : State) (is rest : List Inputs), s.inputs = is ++ rest → runSteps is.length s = .next t →
    t.acc = is.foldl accAfter s.acc ∧ t.inputs = rest

/-- An invariant every step keeps: nothing is on record, and an ACC once defined stays defined (10_state.md section 2,
41_commands.md section 2). -/
def Obligations.StartedIsKept : Prop :=
  ∀ s t : State, s.started = true → step s = .next t → t.started = true

/-- The invariant holds after reset, and after any starting step of a state with nothing on record (10_state.md
section 5). That both records are clear in `State.reset`, the fault record by no word of the spec, is the model's choice
(log entry 10). -/
def Obligations.StartedAfterReset : Prop :=
  State.reset.started = true ∧
  ∀ s t : State, startsMessage s.nextInputs = true → step s = .next t → t.started = true

/-- The step that the run statement below rests on, as an invariant: from a state with nothing on record whose host is
going to keep its duties (reads `crc` only after a reset or INIT, never presents `op = 11` with `rst = 0`), a step gives a
next state, and that is such a state again (70_reset_and_hazards.md sections 2 and 3). That an empty list means a host
that presents NOP is the model's choice (log entry 1). -/
def Obligations.DutifulIsKept : Prop :=
  ∀ s : State, s.clear = true → dutiesKept s.accDefined s.inputs = true →
    ∃ t, step s = .next t ∧ t.clear = true ∧ dutiesKept t.accDefined t.inputs = true

/-- That invariant holds at `State.reset` and at power-on, before the host has chosen any step. Both records being clear
there, and the empty list, are the model's choice (log entries 10 and 1). -/
def Obligations.DutifulAtReset : Prop :=
  (State.reset.clear = true ∧ dutiesKept State.reset.accDefined State.reset.inputs = true) ∧
  (State.powerOn.clear = true ∧ dutiesKept State.powerOn.accDefined State.powerOn.inputs = true)

/-- A host that keeps its duties (reads `crc` only after a reset or INIT, never presents `op = 11` with `rst = 0`) never
sees the run stop, for any number of steps (70_reset_and_hazards.md sections 2 and 3). Steps beyond the host's list are
those of an idle host, which is the model's choice (log entry 1). -/
def Obligations.DutifulHostNeverStops : Prop :=
  ∀ s : State, s.clear = true → dutiesKept s.accDefined s.inputs = true →
    ∀ n : Nat, ∃ t, runSteps n s = .next t ∧ t.clear = true

/-- A starting step erases the past: what ACC held before it has no influence on any later step, an undefined ACC among
it (41_commands.md section 2 on INIT, 70_reset_and_hazards.md sections 1 and 2). Steps beyond the host's list are those of
an idle host, which is the model's choice (log entry 1). -/
def Obligations.StartErasesPast : Prop :=
  ∀ (s : State) (a a' : Acc) (n : Nat),
    startsMessage s.nextInputs = true → s.nextInputs.readCrc = false →
    runSteps (n + 1) { s with acc := a } = runSteps (n + 1) { s with acc := a' }

/-- The step that stops and the step that keeps its stops on record agree: a run of the one ends with a next state
exactly when the run of the other ends with nothing on record, and then in the same state (60_exceptions.md section 1;
the form of the record is log entry 6). -/
def Obligations.RecordedRunAgrees : Prop :=
  ∀ (s t : State) (is : List Inputs), s.clear = true →
    (runSteps is.length { s with inputs := is } = .next t ↔
      recordedRun is { s with inputs := [] } = t ∧ t.clear = true)

end
end

