-- ==== Sys2Proof/Laws/Crc.lean ====
section
/-! SUPPORT. The bit-serial register distributes over XOR, and the fold of BYTE_STEP over a joined message. -/

namespace Sys2Proof.Machine

/-- One step of the register distributes over XOR (40_nibble_processor.md R83, point 1). -/
theorem red1_xor (a b : Word) : red1 (a ^^^ b) = red1 a ^^^ red1 b := by
  have hs : (a ^^^ b) <<< 1 = (a <<< 1) ^^^ (b <<< 1) := BitVec.shiftLeft_xor_distrib ..
  simp only [red1, BitVec.getLsbD_xor, hs]
  cases a.getLsbD 31 <;> cases b.getLsbD 31
  · rfl
  · simp only [Bool.false_xor, if_true, Bool.false_eq_true, if_false]; ac_rfl
  · simp only [Bool.xor_false, if_true, Bool.false_eq_true, if_false]; ac_rfl
  · have h : Config.polynomial ^^^ Config.polynomial = 0#32 := BitVec.xor_self
    simp only [Bool.xor_self, if_true]
    rw [show (a <<< 1 ^^^ Config.polynomial) ^^^ (b <<< 1 ^^^ Config.polynomial) =
        (a <<< 1 ^^^ b <<< 1) ^^^ (Config.polynomial ^^^ Config.polynomial) by ac_rfl, h]
    simp

theorem red4_xor (a b : Word) : red4 (a ^^^ b) = red4 a ^^^ red4 b := by
  simp only [red4, red1_xor]

/-- A register whose top bit is clear only shifts (40_nibble_processor.md R83, point 4). -/
theorem red1_of_topBit_clear {v : Word} (h : v.getLsbD 31 = false) : red1 v = v <<< 1 := by
  rw [red1, h, if_neg Bool.false_ne_true]

theorem crc32Mpeg2_append (a b : List Byte) : crc32Mpeg2 (a ++ b) = foldBytes (crc32Mpeg2 a) b :=
  List.foldl_append

@[simp] theorem foldBytes_nil (c : Word) : foldBytes c [] = c := rfl
@[simp] theorem foldBytes_cons (c : Word) (b : Byte) (bs : List Byte) :
    foldBytes c (b :: bs) = foldBytes (byteStep c b) bs := rfl

end Sys2Proof.Machine
end

