-- ==== Sys2Proof/Laws/State.lean ====
section
/-! SUPPORT. One lemma per field per update of State, so that no later proof unfolds a record update. -/

namespace Sys2Proof.Machine

@[simp] theorem setAcc_acc (s : State) (a : Acc) : (s.setAcc a).acc = a := rfl
@[simp] theorem setAcc_refusalMark (s : State) (a : Acc) : (s.setAcc a).refusalMark = s.refusalMark := rfl
@[simp] theorem setAcc_faultRecord (s : State) (a : Acc) : (s.setAcc a).faultRecord = s.faultRecord := rfl
@[simp] theorem setAcc_inputs (s : State) (a : Acc) : (s.setAcc a).inputs = s.inputs := rfl
@[simp] theorem setAcc_observed (s : State) (a : Acc) : (s.setAcc a).observed = s.observed := rfl
@[simp] theorem setAcc_own (s : State) : s.setAcc s.acc = s := rfl
@[simp] theorem setAcc_setAcc (s : State) (a b : Acc) : (s.setAcc a).setAcc b = s.setAcc b := rfl

@[simp] theorem loadInitial_acc (s : State) : s.loadInitial.acc = .val Config.initialAcc := rfl
@[simp] theorem loadInitial_refusalMark (s : State) : s.loadInitial.refusalMark = s.refusalMark := rfl
@[simp] theorem loadInitial_faultRecord (s : State) : s.loadInitial.faultRecord = s.faultRecord := rfl
@[simp] theorem loadInitial_inputs (s : State) : s.loadInitial.inputs = s.inputs := rfl
@[simp] theorem loadInitial_observed (s : State) : s.loadInitial.observed = s.observed := rfl

@[simp] theorem dropInputs_acc (s : State) : s.dropInputs.acc = s.acc := rfl
@[simp] theorem dropInputs_refusalMark (s : State) : s.dropInputs.refusalMark = s.refusalMark := rfl
@[simp] theorem dropInputs_faultRecord (s : State) : s.dropInputs.faultRecord = s.faultRecord := rfl
@[simp] theorem dropInputs_inputs (s : State) : s.dropInputs.inputs = s.inputs.tail := rfl
@[simp] theorem dropInputs_observed (s : State) : s.dropInputs.observed = s.observed := rfl

theorem nextInputs_nil (s : State) (h : s.inputs = []) : s.nextInputs = idleInputs := by
  simp [State.nextInputs, h]

theorem nextInputs_cons (s : State) (i : Inputs) (rest : List Inputs) (h : s.inputs = i :: rest) :
    s.nextInputs = i := by
  simp [State.nextInputs, h]

end Sys2Proof.Machine
end

