-- ==== Sys2Proof/Laws/Ops.lean ====
section
/-! SUPPORT. One lemma per shared operation that says everything it can do; later proofs cite these and do not
unfold the operation. -/

namespace Sys2Proof.Machine

/-! Outcomes -/

@[simp] theorem andThen_next (s : State) (f : State → StepOutcome) : andThen (.next s) f = f s := rfl
@[simp] theorem andThen_fault (r : Fault) (f : State → StepOutcome) : andThen (.fault r) f = .fault r := rfl
@[simp] theorem andThen_refused (r : Refusal) (f : State → StepOutcome) :
    andThen (.refused r) f = .refused r := rfl

/-- A next state comes out of `andThen` only through a next state of the first part. -/
theorem andThen_eq_next {o : StepOutcome} {f : State → StepOutcome} {t : State} :
    andThen o f = .next t ↔ ∃ s, o = .next s ∧ f s = .next t := by
  cases o <;> simp [andThen]

theorem andThen_assoc (o : StepOutcome) (f g : State → StepOutcome) :
    andThen (andThen o f) g = andThen o fun s => andThen (f s) g := by
  cases o <;> rfl

/-! ACC -/

@[simp] theorem update_undef (b : Byte) : Acc.undef.update b = .undef := rfl
@[simp] theorem update_val (c : Word) (b : Byte) : (Acc.val c).update b = .val (byteStep c b) := rfl

theorem update_eq_undef {a : Acc} {b : Byte} : a.update b = .undef ↔ a = .undef := by
  cases a <;> simp

/-! The ports -/

/-- The fields of `{op, data}` are `op` and `data`, and a word is its two fields: 1024 cases. -/
theorem opField_append : ∀ (op : OpField) (data : Byte), opField (op ++ data : BitVec (2 + 8)) = op := by
  decide +kernel

theorem dataField_append : ∀ (op : OpField) (data : Byte), dataField (op ++ data : BitVec (2 + 8)) = data := by
  decide +kernel

theorem append_fields : ∀ cmd : Command, (opField cmd ++ dataField cmd : BitVec (2 + 8)) = cmd := by
  decide +kernel

/-- The fields of a presented word are the ports' values. -/
@[simp] theorem opField_command (i : Inputs) : opField i.command = i.op := opField_append i.op i.data

@[simp] theorem dataField_command (i : Inputs) : dataField i.command = i.data := dataField_append i.op i.data

/-- A word put on the ports is the word there. -/
@[simp] theorem command_presentWord (cmd : Command) : (presentWord cmd).command = cmd := append_fields cmd

/-- Everything `sampleCrc` can do: nothing, note a defined ACC, or fault on an undefined one. -/
theorem sampleCrc_cases (read : Bool) (s : State) :
    (read = false ∧ sampleCrc read s = .next s) ∨
    (read = true ∧ s.acc = .undef ∧ sampleCrc read s = .fault .undefObserved) ∨
    (∃ c, read = true ∧ s.acc = .val c ∧
      sampleCrc read s = .next { s with observed := s.observed ++ [c] }) := by
  cases read
  · exact .inl ⟨rfl, rfl⟩
  · cases h : s.acc with
    | undef => exact .inr (.inl ⟨rfl, rfl, by simp [sampleCrc, crcPort, h]⟩)
    | val c => exact .inr (.inr ⟨c, rfl, rfl, by simp [sampleCrc, crcPort, h]⟩)

@[simp] theorem sampleCrc_false (s : State) : sampleCrc false s = .next s := rfl

/-! The records -/

theorem clear_iff {s : State} : s.clear = true ↔ s.refusalMark = none ∧ s.faultRecord = none := by
  simp [State.clear]

/-- With nothing on record, `checkRecords` lets the state through, and only then. -/
theorem checkRecords_eq_next {s t : State} : checkRecords s = .next t ↔ s.clear = true ∧ t = s := by
  cases hm : s.refusalMark <;> cases hf : s.faultRecord <;>
    simp [checkRecords, State.clear, hm, hf, eq_comm]

theorem checkRecords_clear {s : State} (h : s.clear = true) : checkRecords s = .next s :=
  checkRecords_eq_next.mpr ⟨h, rfl⟩

@[simp] theorem clear_setAcc (s : State) (a : Acc) : (s.setAcc a).clear = s.clear := rfl
@[simp] theorem clear_dropInputs (s : State) : s.dropInputs.clear = s.clear := rfl
@[simp] theorem clear_inputs (s : State) (is : List Inputs) : { s with inputs := is }.clear = s.clear := rfl
@[simp] theorem clear_observed (s : State) (ws : List Word) : { s with observed := ws }.clear = s.clear := rfl
@[simp] theorem clear_acc (s : State) (a : Acc) : { s with acc := a }.clear = s.clear := rfl

@[simp] theorem recordOutcome_next (s t : State) : recordOutcome s (.next t) = t := rfl

/-- A record that is made stays, whatever is recorded next on the same state. -/
theorem recordOutcome_fault (s : State) (f : Fault) :
    recordOutcome s (.fault f) = { s with faultRecord := some (s.faultRecord.getD f) } := rfl

theorem recordOutcome_refused (s : State) (r : Refusal) :
    recordOutcome s (.refused r) = { s with refusalMark := some (s.refusalMark.getD r), acc := .undef } := rfl

end Sys2Proof.Machine
end

