-- ==== Sys2Proof/Laws/PerInstr.lean ====
section
/-! SUPPORT. Statements made per command, one lemma per constructor of `Instr`. The family TableRow: the encoded
word of a well-formed command lies in the command's own row of the opcode table (30_encoding.md R63). -/

namespace Sys2Proof.Laws.TableRow

/-- The encoded word of a well-formed command lies in its row, and the row is one of the table's. -/
def Statement (i : Instr) : Prop :=
  i.wellFormed = true → i.row ∈ opcodeTable ∧ i.row.covers (encode i) = true

theorem nop : Statement .nop := by
  intro _; decide

theorem init : Statement .init := by
  intro _; decide

theorem update (b : Byte) : Statement (.update b) := by
  intro _; revert b; decide

theorem reserved (cmd : Command) : Statement (.reserved cmd) := by
  unfold Statement
  revert cmd
  decide +kernel

end Sys2Proof.Laws.TableRow
end

