-- ==== Sys2Proof/Laws/Step.lean ====
section
/-! SUPPORT. Decoding by the `op` port, and what an edge can do, said once. -/

namespace Sys2Proof.Machine

/-! Decoding a presented word, by its `op` -/

theorem decode_op00 {cmd : Command} (h : opField cmd = 0b00#2) : decode cmd = .nop := by
  simp [decode, h]

theorem decode_op01 {cmd : Command} (h : opField cmd = 0b01#2) : decode cmd = .init := by
  simp [decode, h]

theorem decode_op10 {cmd : Command} (h : opField cmd = 0b10#2) : decode cmd = .update (dataField cmd) := by
  simp [decode, h]

theorem decode_op11 {cmd : Command} (h : opField cmd = 0b11#2) : decode cmd = .reserved cmd := by
  simp [decode, h]

/-- A selector has one of four values. -/
theorem op_cases (op : OpField) : op = 0b00#2 ∨ op = 0b01#2 ∨ op = 0b10#2 ∨ op = 0b11#2 := by
  revert op; decide

/-! The meanings, each in one line -/

@[simp] theorem execNop_eq (s : State) : execNop s = .next s := rfl
@[simp] theorem execInit_eq (s : State) : execInit s = .next s.loadInitial := rfl
@[simp] theorem execUpdate_eq (b : Byte) (s : State) : execUpdate b s = .next (s.setAcc (s.acc.update b)) := rfl
@[simp] theorem execReserved_eq (cmd : Command) (s : State) : execReserved cmd s = .refused (.reserved cmd) := rfl

/-- Folding a byte into an undefined ACC leaves the state as it is. -/
theorem setAcc_update_undef {s : State} (h : s.acc = .undef) (b : Byte) : s.setAcc (s.acc.update b) = s := by
  cases s; cases h; rfl

/-! The command of an edge -/

/-- Everything an edge can do after the host's read: load ACC, keep it, fold a byte into it, or refuse. -/
theorem commandEdge_cases (i : Inputs) (s : State) :
    (startsMessage i = true ∧ commandEdge i s = .next s.loadInitial) ∨
    (i.rst = false ∧ i.op = 0b00#2 ∧ startsMessage i = false ∧ commandEdge i s = .next s) ∨
    (i.rst = false ∧ i.op = 0b10#2 ∧ startsMessage i = false ∧
      commandEdge i s = .next (s.setAcc (s.acc.update i.data))) ∨
    (i.rst = false ∧ i.op = 0b11#2 ∧ startsMessage i = false ∧
      commandEdge i s = .refused (.reserved i.command)) := by
  cases hr : i.rst
  · rcases op_cases i.op with h | h | h | h
    · have hd : decode i.command = .nop := decode_op00 (by simpa using h)
      exact .inr (.inl ⟨rfl, h, by simp [startsMessage, hr, hd], by simp [commandEdge, hr, hd, exec]⟩)
    · have hd : decode i.command = .init := decode_op01 (by simpa using h)
      exact .inl ⟨by simp [startsMessage, hd], by simp [commandEdge, hr, hd, exec]⟩
    · have hd : decode i.command = .update i.data := by
        simpa using decode_op10 (cmd := i.command) (by simpa using h)
      exact .inr (.inr (.inl
        ⟨rfl, h, by simp [startsMessage, hr, hd], by simp [commandEdge, hr, hd, exec]⟩))
    · have hd : decode i.command = .reserved i.command := decode_op11 (by simpa using h)
      exact .inr (.inr (.inr
        ⟨rfl, h, by simp [startsMessage, hr, hd], by simp [commandEdge, hr, hd, exec]⟩))
  · exact .inl ⟨by simp [startsMessage, hr], by simp [commandEdge, hr, resetEdge]⟩

/-- With nothing on record, an edge is the host's read and then the command. -/
theorem clockEdge_clear {i : Inputs} {s : State} (h : s.clear = true) :
    clockEdge i s = andThen (sampleCrc i.readCrc s) (commandEdge i) := by
  simp [clockEdge, checkRecords_clear h]

/-- An edge gives a next state only with nothing on record, after the read and by the command. -/
theorem clockEdge_eq_next {i : Inputs} {s t : State} :
    clockEdge i s = .next t ↔
      s.clear = true ∧ ∃ u, sampleCrc i.readCrc s = .next u ∧ commandEdge i u = .next t := by
  simp only [clockEdge, andThen_eq_next, checkRecords_eq_next]
  constructor
  · rintro ⟨_, ⟨h, rfl⟩, u, hu⟩
    exact ⟨h, u, hu⟩
  · rintro ⟨h, u, hu⟩
    exact ⟨s, ⟨h, rfl⟩, u, hu⟩

/-- A step whose host presents `i` first. -/
theorem step_cons (s : State) (i : Inputs) (rest : List Inputs) (h : s.inputs = i :: rest) :
    step s = clockEdge i { s with inputs := rest } := by
  simp [step, stepHost, State.nextInputs, State.dropInputs, h]

@[simp] theorem afterHost_acc (s : State) : s.afterHost.acc = s.acc := rfl
@[simp] theorem afterHost_inputs (s : State) : s.afterHost.inputs = s.inputs.tail := rfl
@[simp] theorem afterHost_refusalMark (s : State) : s.afterHost.refusalMark = s.refusalMark := rfl
@[simp] theorem afterHost_faultRecord (s : State) : s.afterHost.faultRecord = s.faultRecord := rfl
@[simp] theorem clear_afterHost (s : State) : s.afterHost.clear = s.clear := rfl

/-- The host's part of a step: it goes through exactly where the read is allowed, and faults where it is not. -/
theorem sample_nextInputs (s : State) :
    sampleCrc s.nextInputs.readCrc s.dropInputs =
      if s.readAllowed = true then .next s.afterHost else .fault .undefObserved := by
  rcases sampleCrc_cases s.nextInputs.readCrc s.dropInputs with ⟨h, e⟩ | ⟨h, ha, e⟩ | ⟨c, h, ha, e⟩
  · rw [e, if_pos (by simp [State.readAllowed, h])]
    simp [State.afterHost, h, State.dropInputs]
  · rw [e, if_neg (by simpa [State.readAllowed, State.accDefined, h] using ha)]
  · have ha : s.acc = .val c := ha
    rw [e, if_pos (by simp [State.readAllowed, State.accDefined, ha])]
    simp [State.afterHost, h, ha, State.dropInputs]

/-- Everything a step can do, said once: with nothing on record and an allowed read it is the command's edge on
the state after the host's part. -/
theorem step_eq_commandEdge {s : State} (h : s.clear = true) (hr : s.readAllowed = true) :
    step s = commandEdge s.nextInputs s.afterHost := by
  rw [step, stepHost, clockEdge_clear (by simpa using h), sample_nextInputs, if_pos hr, andThen_next]

/-- With nothing on record and a forbidden read, a step is the fault `UndefObserved`. -/
theorem step_forbidden_read {s : State} (h : s.clear = true) (hr : s.readAllowed = false) :
    step s = .fault .undefObserved := by
  rw [step, stepHost, clockEdge_clear (by simpa using h), sample_nextInputs, if_neg (by simp [hr]), andThen_fault]

/-- A step gives a next state only so. -/
theorem step_eq_next {s t : State} :
    step s = .next t ↔
      s.clear = true ∧ s.readAllowed = true ∧ commandEdge s.nextInputs s.afterHost = .next t := by
  constructor
  · intro e
    have h : s.clear = true := by
      have := (clockEdge_eq_next.mp e).1
      simpa using this
    cases hr : s.readAllowed
    · rw [step_forbidden_read h hr] at e; cases e
    · exact ⟨h, rfl, step_eq_commandEdge h hr ▸ e⟩
  · rintro ⟨h, hr, e⟩
    rw [step_eq_commandEdge h hr, e]

/-- The edge of a command changes nothing but ACC. -/
theorem commandEdge_setAcc {i : Inputs} {s t : State} (h : commandEdge i s = .next t) : t = s.setAcc t.acc := by
  rcases commandEdge_cases i s with ⟨_, e⟩ | ⟨_, _, _, e⟩ | ⟨_, _, _, e⟩ | ⟨_, _, _, e⟩ <;>
    rw [e] at h <;> cases h <;> rfl

/-- The command that `withFetchWord` presents is what the next step runs, with nothing on record. -/
theorem step_withFetchWord (s : State) (nbits w : Nat) (h : s.clear = true) :
    step (s.withFetchWord nbits w) =
      exec (decode (BitVec.ofNat 10 w)) { s with inputs := s.inputs.tail } := by
  rw [step_cons _ (presentWord (BitVec.ofNat 10 w)) s.inputs.tail (by simp [State.withFetchWord, presentNext])]
  rw [clockEdge_clear (by simpa [State.withFetchWord, presentNext] using h)]
  have hr : (presentWord (BitVec.ofNat 10 w)).readCrc = false := rfl
  have hs : (presentWord (BitVec.ofNat 10 w)).rst = false := rfl
  simp [hr, hs, commandEdge, State.withFetchWord, presentNext]

end Sys2Proof.Machine
end

