-- ==== Sys2Proof/Machine/Flags.lean ====
section
/-! DEFINITION. Flags: there are none. "The block has no flags, condition codes or predicates, and no
status, error or done indication" (10_state.md R30), and each command rule says "Flags written: none"
(41_commands.md R91 to R93). So this file defines no flag and no flag computation, and State has no
flag field. -/
end

