-- ==== Sys2Proof/Tests/Slice0.lean ====
section
/-! SUPPORT. Small tests with expected values from spec/95_test_vectors.md and the rules' own examples, and one
witness for the hypotheses of each statement that has some. -/

namespace Sys2Proof.Tests
open Sys2Proof Sys2Proof.Machine

/-- A state with nothing on record, an accumulator and a host's list. -/
def host (a : Acc) (is : List Inputs) : State := { State.reset with acc := a, inputs := is }

/-- One clock edge's inputs without a read. -/
def word (cmd : Command) : Inputs := presentWord cmd

/-- The same with `rst = 1`. -/
def rstWord (cmd : Command) : Inputs := { presentWord cmd with rst := true }

/-- The same with a read of `crc` before the edge. -/
def readWordCrc (cmd : Command) : Inputs := { presentWord cmd with readCrc := true }

/-- ACC after `n` steps, if there is a next state. -/
def accAfterSteps (n : Nat) (s : State) : Option Acc := (nextState? (runSteps n s)).map (·.acc)

/-! ## Well-formedness and decoding -/

/-- The check refuses a reserved term whose word's `op` is not 11. -/
theorem test_wellFormed_refuses : (Instr.reserved 0x2FF#10).wellFormed = false := by decide

theorem test_wellFormed_accepts :
    (Instr.reserved 0x3A5#10).wellFormed = true ∧ (Instr.update 0xFF#8).wellFormed = true ∧
    Instr.nop.wellFormed = true ∧ Instr.init.wellFormed = true := by decide

/-- R63, bit by bit: `op = 00` with data `0xAB` (95_test_vectors.md 2.3). -/
theorem test_decode_nop : decode 0b0010101011#10 = .nop := by decide
/-- `op = 01` with data `0x55` (2.3). -/
theorem test_decode_init : decode 0b0101010101#10 = .init := by decide
/-- P1 step 2: `1000110001` is UPDATE '1'. -/
theorem test_decode_update : decode 0b1000110001#10 = .update 0x31#8 := by decide
/-- Word `0x3A5` (2.5). -/
theorem test_decode_reserved : decode 0b1110100101#10 = .reserved 0x3A5#10 := by decide

/-- R68: the assembler's words. -/
theorem test_encode :
    encode .nop = 0x000#10 ∧ encode .init = 0x100#10 ∧ encode (.update 0x39#8) = 0x239#10 := by decide

theorem test_decodeTableWord :
    decodeTableWord 16 0x2FF = some (.update 0xFF#8) ∧ decodeTableWord 16 0x400 = none := by decide

/-! ## The nibble processor and the byte step -/

/-- 95_test_vectors.md 2.1. -/
theorem test_nibbleStep :
    nibbleStep 0xFFFFFFFF#32 0x0#4 = 0xC7B0424D#32 ∧ nibbleStep 0x12345678#32 0x9#4 = 0x054D8A38#32 ∧
    nibbleStep 0x80000000#32 0x0#4 = 0x2608EDB8#32 ∧ nibbleStep 0xDEADBEEF#32 0xD#4 = 0xEADBEEF0#32 := by decide

/-- 95_test_vectors.md 2.2. -/
theorem test_byteStep :
    byteStep 0xFFFFFFFF#32 0xF0#8 = 0xC7B042BD#32 ∧ byteStep 0x00000000#32 0x80#8 = 0x690CE0EE#32 ∧
    byteStep 0x12345678#32 0x12#8 = 0x34567800#32 ∧ byteStep 0x04C11DB7#32 0x00#8 = 0xD219C1DC#32 := by decide

/-- 95_test_vectors.md 2.4: "abc", and 1.2 after '1', '2', '3'. -/
theorem test_messages :
    crc32Mpeg2 [0x61#8, 0x62#8, 0x63#8] = 0x9B73448C#32 ∧ crc32Mpeg2 [0x31#8, 0x32#8, 0x33#8] = 0xD952F164#32 ∧
    crc32Mpeg2 [0x00#8, 0xFF#8] = 0xB14024C9#32 := by decide

/-- 95_test_vectors.md 2.4: the 32 bytes counting up from 0. -/
theorem test_counting_message :
    crc32Mpeg2 ((List.range 32).map (BitVec.ofNat 8)) = 0x8F819950#32 := by decide +kernel

/-- 95_test_vectors.md 2.6: the checksum of "123456789" appended with the wrong byte order. -/
theorem test_residue_wrong_order :
    foldBytes 0x0376E6E7#32 [0xE7#8, 0xE6#8, 0x76#8, 0x03#8] = 0x54453F62#32 := by decide

/-! ## Steps -/

/-- 2.3: NOP with data `0xAB`. -/
theorem test_nop_step : accAfterSteps 1 (host (.val 0x9EFBCF93#32) [word 0x0AB#10]) = some (.val 0x9EFBCF93#32) := by
  decide
/-- 2.3: INIT with data `0x55`, and INIT from `UNDEF`. -/
theorem test_init_step :
    accAfterSteps 1 (host (.val 0x9EFBCF93#32) [word 0x155#10]) = some (.val 0xFFFFFFFF#32) ∧
    accAfterSteps 1 (host .undef [word 0x100#10]) = some (.val 0xFFFFFFFF#32) := by decide
/-- R93's example, and 2.5: UPDATE of an undefined ACC. -/
theorem test_update_step :
    accAfterSteps 1 (host (.val 0xFFFFFFFF#32) [word 0x231#10]) = some (.val 0x9EFBCF93#32) ∧
    accAfterSteps 1 (host .undef [word 0x231#10]) = some .undef := by decide
/-- 2.5: words `0x300` and `0x3A5` with `rst = 0`. -/
theorem test_reserved_step :
    refusal? (step (host (.val 0xFFFFFFFF#32) [word 0x300#10])) = some (.reserved 0x300#10) ∧
    refusal? (step (host (.val 0xFFFFFFFF#32) [word 0x3A5#10])) = some (.reserved 0x3A5#10) := by decide
/-- 2.3: reset with UPDATE 0x32 and with word `0x300`. -/
theorem test_reset_priority :
    accAfterSteps 1 (host (.val 0x9EFBCF93#32) [rstWord 0x232#10]) = some (.val 0xFFFFFFFF#32) ∧
    accAfterSteps 1 (host (.val 0x9EFBCF93#32) [rstWord 0x300#10]) = some (.val 0xFFFFFFFF#32) := by decide
/-- 2.5: power-on, NOP, then the host reads `crc`. -/
theorem test_undef_read :
    fault? (runSteps 2 { State.powerOn with inputs := [word 0x000#10, readWordCrc 0x000#10] }) =
      some .undefObserved := by decide
/-- P3 steps 5 and 6: the host reads 0x9B73448C and starts again. -/
theorem test_read_then_init :
    (nextState? (step (host (.val 0x9B73448C#32) [readWordCrc 0x100#10]))).map (fun t => (t.acc, t.observed)) =
      some (.val 0xFFFFFFFF#32, [0x9B73448C#32]) := by decide
/-- 2.5: the mark stays set after any later step, reset included; ACC goes on (R33). -/
theorem test_mark_stays :
    (recordedRun [word 0x300#10, rstWord 0x000#10] (host (.val 0#32) [])).refusalMark = some (.reserved 0x300#10) ∧
    (recordedRun [word 0x300#10, rstWord 0x000#10] (host (.val 0#32) [])).acc = .val 0xFFFFFFFF#32 := by decide
/-- The command that `withFetchWord` places is the one the first step after reset runs. -/
theorem test_withFetchWord :
    (nextState? (step (State.reset.withFetchWord 16 0x231))).map (·.acc) = some (.val 0x9EFBCF93#32) := by decide

/-! ## The assembler's notation -/

/-- P5 step 3: `rst: UPDATE '2'` presents `0x232` with `rst = 1`. -/
theorem test_assemble_reset_line :
    assembleLine ['r', 's', 't', ':', ' ', 'U', 'P', 'D', 'A', 'T', 'E', ' ', '\'', '2', '\''] =
      .ok [rstWord 0x232#10] := by rfl
/-- R69: 256 is an error, not a mask. -/
theorem test_assemble_out_of_range :
    assembleLine ['U', 'P', 'D', 'A', 'T', 'E', ' ', '2', '5', '6'] = .error (.outOfRange 256) := by rfl
/-- R65: no mnemonic names a reserved word. -/
theorem test_assemble_unknown : assembleLine ['H', 'A', 'L', 'T'] = .error .unknownMnemonic := by rfl
/-- R70: `CRCMSG 'a', 98` is INIT and two UPDATEs. -/
theorem test_assemble_crcmsg :
    assembleLine ['C', 'R', 'C', 'M', 'S', 'G', ' ', '\'', 'a', '\'', ',', ' ', '9', '8'] =
      .ok [word 0x100#10, word 0x261#10, word 0x262#10] := by rfl

/-- R70 with k = 0 and R68's comment: `CRCMSG;x` is INIT alone, as `INIT;x` is INIT; UPDATE has no such form. -/
theorem test_assemble_crcmsg_comment :
    assembleLine ['C', 'R', 'C', 'M', 'S', 'G', ';', 'x'] = .ok [word 0x100#10] ∧
    assembleLine ['I', 'N', 'I', 'T', ';', 'x'] = .ok [word 0x100#10] ∧
    assembleLine ['U', 'P', 'D', 'A', 'T', 'E', ';', 'x'] = .error .badLiteral := ⟨rfl, rfl, rfl⟩

/-- Log entry 13: a `;` in a character or string literal is a character, and the next one after it a comment. -/
theorem test_assemble_quoted_semicolon :
    assembleLine ['U', 'P', 'D', 'A', 'T', 'E', ' ', '\'', ';', '\'', ';', 'x'] = .ok [word 0x23B#10] ∧
    assembleLine ['C', 'R', 'C', 'M', 'S', 'G', ' ', '"', ';', '"', ';'] = .ok [word 0x100#10, word 0x23B#10] :=
  ⟨rfl, rfl⟩

/-! ## Witnesses: the hypotheses of the statements can be met -/

theorem witness_OpFieldSelectsCommand :
    opField 0x0FF#10 = 0b00#2 ∧ opField 0x100#10 = 0b01#2 ∧ opField 0x2FF#10 = 0b10#2 ∧
    opField 0x300#10 = 0b11#2 := by decide
theorem witness_NopAndInitIgnoreData :
    (word 0x000#10).rst = (word 0x0FF#10).rst ∧ (word 0x000#10).readCrc = (word 0x0FF#10).readCrc ∧
    (word 0x000#10).op = (word 0x0FF#10).op ∧ (word 0x000#10).op = 0b00#2 ∧ (word 0x1FF#10).op = 0b01#2 := by decide
theorem witness_DecodeOfEncode :
    (Instr.update 0x00#8).wellFormed = true ∧ (Instr.update 0xFF#8).wellFormed = true ∧
    (Instr.reserved 0x300#10).wellFormed = true ∧ (Instr.reserved 0x3FF#10).wellFormed = true ∧
    Instr.nop.wellFormed = true ∧ Instr.init.wellFormed = true := by decide
theorem witness_EncodeOfDecode : opField 0x0AB#10 = 0b00#2 ∧ opField 0x155#10 = 0b01#2 := by decide
/-- The values where the two clauses meet. -/
theorem witness_OperandOutOfRangeIsError :
    255 < 256 ∧ checkByte 256 = .error (.outOfRange 256) ∧ 255 ≤ 255 ∧ checkByte 255 = .ok 0xFF#8 := by
  exact ⟨by decide, rfl, by decide, rfl⟩
theorem witness_StepRunsDecodedCommand :
    (host .undef [word 0x231#10]).clear = true ∧ (host .undef [word 0x231#10]).nextInputs.rst = false ∧
    (host .undef [word 0x231#10]).nextInputs.readCrc = false ∧
    (host (.val 5#32) [readWordCrc 0x231#10]).clear = true ∧
    (host (.val 5#32) [readWordCrc 0x231#10]).nextInputs.rst = false ∧
    (host (.val 5#32) [readWordCrc 0x231#10]).nextInputs.readCrc = true ∧
    (host (.val 5#32) [readWordCrc 0x231#10]).acc = .val 5#32 := by decide
/-- One state for the clauses that need a defined ACC, one for the clause that needs `UNDEF`. -/
theorem witness_EdgeFollowsPorts :
    (host (.val 0#32) []).clear = true ∧ (host (.val 0#32) []).acc = .val 0#32 ∧
    (host .undef []).clear = true ∧ (host .undef []).acc = .undef := by decide
theorem witness_ResetStepLoadsAcc :
    (host .undef [rstWord 0x3FF#10]).clear = true ∧
    (host .undef [rstWord 0x3FF#10]).inputs =
      { rst := true, op := 0b11#2, data := 0xFF#8, readCrc := false } :: [] := by decide
theorem witness_ResetIgnoresCommand :
    (rstWord 0x3FF#10).rst = true ∧ (rstWord 0x000#10).rst = true ∧
    (rstWord 0x3FF#10).readCrc = (rstWord 0x000#10).readCrc ∧ (host .undef [rstWord 0x3FF#10]).clear = true ∧
    (host .undef [rstWord 0x3FF#10]).inputs =
      { rst := true, op := 0b11#2, data := 0xFF#8, readCrc := false } :: [] := by decide
theorem witness_ResetEqualsInit :
    (rstWord 0x2AA#10).rst = true ∧ (word 0x1FF#10).rst = false ∧ (word 0x1FF#10).op = 0b01#2 ∧
    (rstWord 0x2AA#10).readCrc = (word 0x1FF#10).readCrc := by decide
theorem witness_ResetKeepsRecords : (rstWord 0x300#10).rst = true ∧ (rstWord 0x300#10).readCrc = false := by decide
theorem witness_ResetTable :
    (rstWord 0x300#10).rst = true ∧ (rstWord 0x300#10).readCrc = false ∧
    (word 0x155#10).rst = false ∧ (word 0x155#10).op = 0b01#2 ∧ (word 0x155#10).readCrc = false := by decide
theorem witness_IdleHostPresentsNop : (host .undef []).clear = true ∧ (host .undef []).inputs = [] := by decide
theorem witness_UpdateFoldsByte :
    (host (.val 0xFFFFFFFF#32) []).acc = .val 0xFFFFFFFF#32 ∧ (host .undef []).acc = .undef := by decide
theorem witness_UndefinedAccStays : State.powerOn.acc = .undef ∧ (rstWord 0x3FF#10).rst = true := by decide
theorem witness_ReservedWordRefusesRun :
    (host .undef [word 0x3FF#10]).clear = true ∧ (host .undef [word 0x3FF#10]).nextInputs.readCrc = false ∧
    (host .undef [word 0x3FF#10]).nextInputs.rst = false ∧
    (host .undef [word 0x3FF#10]).nextInputs.op = 0b11#2 := by decide
theorem witness_CommandFrame :
    (∃ t, exec .nop State.reset = .next t) ∧ (∃ t, exec .init State.powerOn = .next t) ∧
    (∃ t, exec (.update 0x31#8) State.reset = .next t) := ⟨⟨_, rfl⟩, ⟨_, rfl⟩, ⟨_, rfl⟩⟩
theorem witness_NoCommandFaults :
    Instr.update 0x31#8 = .nop ∨ Instr.update 0x31#8 = .init ∨ ∃ b, Instr.update 0x31#8 = .update b :=
  .inr (.inr ⟨_, rfl⟩)
theorem witness_NibbleStepShiftsAndLooksUp : (0xDEADBEEF#32).extractLsb' 28 4 = 0xD#4 := by decide
theorem witness_UpdateIsInjectiveInAcc : byteStep 7#32 0xFF#8 = byteStep 7#32 0xFF#8 := rfl
theorem witness_EmptyMessageChecksum :
    (host .undef [word 0x100#10]).clear = true ∧ (host .undef [word 0x100#10]).readAllowed = true ∧
    startsMessage (host .undef [word 0x100#10]).nextInputs = true ∧ startsMessage (rstWord 0x300#10) = true := by
  decide

/-- P2: reset, UPDATE 0x00, NOP, UPDATE 0xFF, NOP, from power-on. -/
def messageState : State :=
  host .undef (rstWord 0x000#10 :: ([word 0x200#10, word 0x000#10, word 0x2FF#10, word 0x000#10] ++ []))

theorem witness_MessageChecksum :
    messageState.clear = true ∧ messageState.readAllowed = true ∧
    messageState.inputs =
      rstWord 0x000#10 :: ([word 0x200#10, word 0x000#10, word 0x2FF#10, word 0x000#10] ++ []) ∧
    startsMessage (rstWord 0x000#10) = true ∧
    messageBytes [word 0x200#10, word 0x000#10, word 0x2FF#10, word 0x000#10] = some [0x00#8, 0xFF#8] := by decide
theorem witness_PrefixChecksum :
    messageState.clear = true ∧ messageState.readAllowed = true ∧
    messageState.inputs =
      rstWord 0x000#10 :: ([word 0x200#10, word 0x000#10] ++ ([word 0x2FF#10, word 0x000#10] ++ [])) ∧
    startsMessage (rstWord 0x000#10) = true ∧
    messageBytes [word 0x200#10, word 0x000#10] = some [0x00#8] ∧
    messageBytes [word 0x2FF#10, word 0x000#10] = some [0xFF#8] := by decide
theorem witness_MessageTakesOneStepPerByte :
    (messageState.clear = true ∧ messageState.readAllowed = true) ∧
    ([word 0x200#10, word 0x000#10, word 0x2FF#10, word 0x000#10].countP
      fun i => decide (decode i.command = .nop)) = 2 ∧
    messageBytes [word 0x200#10, word 0x000#10, word 0x2FF#10, word 0x000#10] = some [0x00#8, 0xFF#8] := by decide
theorem witness_CrcmsgComputesChecksum :
    (host .undef ((crcmsg [0x61#8]).map presentInstr ++ [])).clear = true ∧
    (host .undef ((crcmsg [0x61#8]).map presentInstr ++ [])).inputs = [word 0x100#10, word 0x261#10] := by decide
theorem witness_IdleStepsDropOut :
    State.powerOn.clear = true ∧ isIdle (word 0x0AB#10) = true ∧ isIdle (word 0x231#10) = false := by decide
theorem witness_SingleBitFlipChangesChecksum : 0 < 8 ∧ 7 < 8 ∧ 0x00#8 ^^^ (1#8 <<< 7) = 0x80#8 := by decide
theorem witness_CrcPortShowsAcc :
    (host (.val 5#32) []).acc = .val 5#32 ∧
    (nextState? (step (host (.val 5#32) [word 0x100#10]))).map crcPort = some (.val 0xFFFFFFFF#32) ∧
    crcPort (host (.val 5#32) [word 0x100#10]) = .val 5#32 := by decide
theorem witness_ReadReturnsAcc :
    (host (.val 5#32) [readWordCrc 0x000#10]).clear = true ∧ (host (.val 5#32) [readWordCrc 0x000#10]).acc = .val 5#32 ∧
    (host (.val 5#32) [readWordCrc 0x000#10]).nextInputs.readCrc = true ∧
    (host (.val 5#32) [readWordCrc 0x000#10]).nextInputs.op ≠ 0b11#2 := by decide
theorem witness_AccUndefinedUntilStarted :
    (host .undef ([word 0x000#10, word 0x231#10] ++ [readWordCrc 0x000#10])).clear = true ∧
    (host .undef ([word 0x000#10, word 0x231#10] ++ [readWordCrc 0x000#10])).acc = .undef ∧
    (∀ i ∈ [word 0x000#10, word 0x231#10],
      i.rst = false ∧ i.readCrc = false ∧ (i.op = 0b00#2 ∨ i.op = 0b10#2)) := by decide
theorem witness_UndefinedReadFaults :
    (host .undef [readWordCrc 0x100#10]).clear = true ∧ (host .undef [readWordCrc 0x100#10]).acc = .undef ∧
    (host .undef [readWordCrc 0x100#10]).nextInputs.readCrc = true ∧
    (recordedEdge (readWordCrc 0x100#10) State.powerOn).faultRecord = some .undefObserved := by decide
theorem witness_ReservedMarkStays :
    State.powerOn.refusalMark = none ∧ (word 0x3A5#10).rst = false ∧ (word 0x3A5#10).op = 0b11#2 ∧
    (recordedEdge (word 0x3A5#10) State.powerOn).refusalMark = some (.reserved 0x3A5#10) ∧
    (rstWord 0x3A5#10).rst = true := by decide
theorem witness_ReservedWordLeavesNoValue : (word 0x300#10).rst = false ∧ (word 0x300#10).op = 0b11#2 := by decide
/-- Each of the two stops happens, at a value of its own range and where the two meet. -/
theorem witness_StepStopsExactlyWhen :
    State.powerOn.clear = true ∧
    fault? (step (host .undef [readWordCrc 0x000#10])) = some .undefObserved ∧
    fault? (step (host .undef [readWordCrc 0x300#10])) = some .undefObserved ∧
    refusal? (step (host (.val 0#32) [readWordCrc 0x300#10])) = some (.reserved 0x300#10) := by decide
theorem witness_StepFrame :
    (∃ t, step (host (.val 5#32) [readWordCrc 0x231#10]) = .next t) ∧
    (host (.val 5#32) [readWordCrc 0x231#10]).nextInputs.readCrc = true ∧
    (∃ t, step (host .undef [word 0x000#10]) = .next t) ∧ (host .undef [word 0x000#10]).nextInputs.readCrc = false ∧
    (host .undef [word 0x000#10]).nextInputs.op = 0b00#2 := ⟨⟨_, rfl⟩, rfl, ⟨_, rfl⟩, rfl, rfl⟩
theorem witness_AccIsFoldOfSteps :
    ∃ t, runSteps 2 (host .undef ([word 0x100#10, word 0x231#10] ++ [])) = .next t := ⟨_, rfl⟩
theorem witness_StartedIsKept : State.reset.started = true ∧ ∃ t, step State.reset = .next t := ⟨by decide, _, rfl⟩
theorem witness_StartedAfterReset :
    startsMessage (host .undef [word 0x100#10]).nextInputs = true ∧ ∃ t, step (host .undef [word 0x100#10]) = .next t :=
  ⟨by decide, _, rfl⟩
theorem witness_DutifulHostNeverStops :
    (host .undef [word 0x231#10, word 0x100#10, readWordCrc 0x231#10, rstWord 0x3FF#10]).clear = true ∧
    dutiesKept (host .undef []).accDefined
      [word 0x231#10, word 0x100#10, readWordCrc 0x231#10, rstWord 0x3FF#10] = true := by decide
/-- An empty list, a list whose first record reads a defined ACC, and one whose first record starts a message. -/
theorem witness_DutifulIsKept :
    ((host (.val 5#32) [readWordCrc 0x231#10]).clear = true ∧
      dutiesKept (host (.val 5#32) [readWordCrc 0x231#10]).accDefined [readWordCrc 0x231#10] = true) ∧
    (State.powerOn.clear = true ∧ dutiesKept State.powerOn.accDefined State.powerOn.inputs = true) ∧
    dutiesKept false [word 0x100#10, readWordCrc 0x231#10] = true := by decide
theorem witness_StartErasesPast :
    startsMessage (host .undef [word 0x100#10]).nextInputs = true ∧
    (host .undef [word 0x100#10]).nextInputs.readCrc = false := by decide
/-- Both sides of the equivalence happen: a run that ends clear, and one that does not. -/
theorem witness_RecordedRunAgrees :
    State.powerOn.clear = true ∧
    (recordedRun [word 0x100#10, word 0x231#10] State.powerOn).clear = true ∧
    (recordedRun [word 0x300#10, word 0x100#10] State.powerOn).clear = false := by decide

end Sys2Proof.Tests
end

/-! # Proofs: the state (10_state.md) -/

section
namespace Sys2Proof.Machine

/-! ## The ports that start a message, and what changes ACC -/

/-- A message starts by reset or by the selector of INIT, read off the ports. -/
theorem startsMessage_iff {i : Inputs} : startsMessage i = true ↔ i.rst = true ∨ i.op = 0b01#2 := by
  cases hr : i.rst
  · have hcmd : opField i.command = i.op := opField_command i
    rcases op_cases i.op with h | h | h | h
    · simp [startsMessage, hr, h, decode_op00 (hcmd.trans h)]
    · simp [startsMessage, hr, h, decode_op01 (hcmd.trans h)]
    · simp [startsMessage, hr, h, decode_op10 (hcmd.trans h)]
    · simp [startsMessage, hr, h, decode_op11 (hcmd.trans h)]
  · simp [startsMessage, hr]

/-- The edge of a command changes ACC only at a reset, an INIT or an UPDATE (10_state.md R28). -/
theorem commandEdge_acc_ne {i : Inputs} {s t : State} (h : commandEdge i s = .next t) (hne : t.acc ≠ s.acc) :
    i.rst = true ∨ i.op = 0b01#2 ∨ i.op = 0b10#2 := by
  rcases commandEdge_cases i s with ⟨hs, _⟩ | ⟨_, _, _, e⟩ | ⟨_, hop, _, _⟩ | ⟨_, _, _, e⟩
  · exact (startsMessage_iff.mp hs).imp_right .inl
  · rw [e] at h; cases h; exact absurd rfl hne
  · exact .inr (.inr hop)
  · rw [e] at h; cases h

/-- A step changes ACC only at a reset, an INIT or an UPDATE: the host's read leaves it alone. -/
theorem step_acc_ne {s t : State} (h : step s = .next t) (hne : t.acc ≠ s.acc) :
    s.nextInputs.rst = true ∨ s.nextInputs.op = 0b01#2 ∨ s.nextInputs.op = 0b10#2 := by
  obtain ⟨_, _, hedge⟩ := step_eq_next.mp h
  exact commandEdge_acc_ne hedge hne

/-! ## The obligations -/

/-- Settles O26: the ROM is sixteen literals, and reading them in order is one small closed computation. -/
theorem tableHoldsListedValues : Obligations.TableHoldsListedValues := by
  unfold Obligations.TableHoldsListedValues
  decide

/-- Settles O45: the port is ACC by definition, and the rest is `step_acc_ne` read through the port. -/
theorem crcPortShowsAcc : Obligations.CrcPortShowsAcc := by
  unfold Obligations.CrcPortShowsAcc
  refine ⟨fun s c i hacc => ⟨c, hacc, rfl⟩, fun s => rfl, fun s t hstep hne => ?_⟩
  exact step_acc_ne hstep hne

end Sys2Proof.Machine
end

/-! # Proofs: the ordering of steps (20_memory.md) -/

section
namespace Sys2Proof.Machine

/-! ## What the ports make of ACC, case by case -/

/-- A reset or an INIT makes ACC the initial value, whatever it held. -/
theorem accAfter_of_startsMessage {i : Inputs} (h : startsMessage i = true) (a : Acc) :
    accAfter a i = .val Config.initialAcc := by
  cases hr : i.rst
  · have hop : i.op = 0b01#2 := (startsMessage_iff.mp h).resolve_left (by simp [hr])
    simp [accAfter, hr, hop, Config.initialAcc]
  · simp [accAfter, hr, Config.initialAcc]

theorem accAfter_of_nop {i : Inputs} (hr : i.rst = false) (hop : i.op = 0b00#2) (a : Acc) :
    accAfter a i = a := by
  simp [accAfter, hr, hop]

theorem accAfter_of_update {i : Inputs} (hr : i.rst = false) (hop : i.op = 0b10#2) (a : Acc) :
    accAfter a i = a.update i.data := by
  simp [accAfter, hr, hop]

/-! ## One step, and a run of them -/

/-- An edge that goes through does to ACC what the ports say: `accAfter` and `exec` agree. -/
theorem commandEdge_acc {i : Inputs} {s t : State} (h : commandEdge i s = .next t) :
    t.acc = accAfter s.acc i := by
  rcases commandEdge_cases i s with ⟨hs, e⟩ | ⟨hr, hop, _, e⟩ | ⟨hr, hop, _, e⟩ | ⟨_, _, _, e⟩
  · rw [e] at h; cases h; rw [accAfter_of_startsMessage hs, loadInitial_acc]
  · rw [e] at h; cases h; rw [accAfter_of_nop hr hop]
  · rw [e] at h; cases h; rw [accAfter_of_update hr hop, setAcc_acc]
  · rw [e] at h; cases h

/-- A step that goes through does to ACC what its ports say: the host's read has no part in it. -/
theorem step_acc {s t : State} (h : step s = .next t) : t.acc = accAfter s.acc s.nextInputs := by
  obtain ⟨_, _, hedge⟩ := step_eq_next.mp h
  simpa using commandEdge_acc hedge

/-- A step that goes through takes exactly the host's first record. -/
theorem step_inputs {s t : State} (h : step s = .next t) : t.inputs = s.inputs.tail := by
  obtain ⟨_, _, hedge⟩ := step_eq_next.mp h
  rw [commandEdge_setAcc hedge, setAcc_inputs, afterHost_inputs]

/-- A run gives a next state only through its first step and the run of the others. -/
theorem runSteps_succ_eq_next {n : Nat} {s t : State} :
    runSteps (n + 1) s = .next t ↔ ∃ u, step s = .next u ∧ runSteps n u = .next t :=
  andThen_eq_next

/-! ## The obligation -/

/-- Settles O53, by induction on the presented records: the first step does `accAfter` of the first record and
leaves the others to the rest of the run. -/
theorem accIsFoldOfSteps : Obligations.AccIsFoldOfSteps := by
  unfold Obligations.AccIsFoldOfSteps
  intro s t is rest hin hrun
  induction is generalizing s with
  | nil => cases hrun; exact ⟨rfl, hin⟩
  | cons i is ih =>
    obtain ⟨u, hstep, hrest⟩ := runSteps_succ_eq_next.mp hrun
    have hin_u : u.inputs = is ++ rest := by rw [step_inputs hstep, hin]; rfl
    have hacc_u : u.acc = accAfter s.acc i := by rw [step_acc hstep, nextInputs_cons s i _ hin]
    obtain ⟨hacc, hinputs⟩ := ih u hin_u hrest
    exact ⟨by rw [hacc, hacc_u, List.foldl_cons], hinputs⟩

end Sys2Proof.Machine
end

/-! # Proofs: the encoding (30_encoding.md) -/

section
namespace Sys2Proof.Machine

/-! ## The two fields of a word -/

/-- The row's mask leaves the selector and clears the operand. -/
theorem and_rowMask (cmd : Command) : cmd &&& 0x300#10 = (opField cmd ++ 0#8 : BitVec (2 + 8)) := by
  have hmask : (0x300#10 : BitVec (2 + 8)) = BitVec.allOnes 2 ++ 0#8 := by decide
  calc cmd &&& 0x300#10
      = (opField cmd ++ dataField cmd : BitVec (2 + 8)) &&& (BitVec.allOnes 2 ++ 0#8) := by
        rw [append_fields, ← hmask]
    _ = opField cmd ++ 0#8 := by rw [BitVec.and_append, BitVec.and_allOnes, BitVec.and_zero]

/-- A selector belongs to a word exactly when the word matches that selector's row under the mask. -/
theorem opField_eq_iff_and_rowMask (cmd : Command) (op : OpField) :
    opField cmd = op ↔ cmd &&& 0x300#10 = (op ++ 0#8 : BitVec (2 + 8)) := by
  rw [and_rowMask]
  refine ⟨fun h => by rw [h], fun h => ?_⟩
  simpa only [opField_append] using congrArg opField h

/-- A selector belongs to a word exactly when the word is the selector followed by some byte. -/
theorem opField_eq_iff_exists_append (cmd : Command) (op : OpField) :
    opField cmd = op ↔ ∃ data : Byte, cmd = (op ++ data : BitVec (2 + 8)) := by
  constructor
  · rintro rfl
    exact ⟨dataField cmd, (append_fields cmd).symm⟩
  · rintro ⟨data, rfl⟩
    exact opField_append op data

/-! ## Which words decode to NOP and to INIT -/

theorem decode_eq_nop_iff (cmd : Command) : decode cmd = .nop ↔ opField cmd = 0b00#2 := by
  rcases op_cases (opField cmd) with h | h | h | h
  · simp [h, decode_op00 h]
  · simp [h, decode_op01 h]
  · simp [h, decode_op10 h]
  · simp [h, decode_op11 h]

theorem decode_eq_init_iff (cmd : Command) : decode cmd = .init ↔ opField cmd = 0b01#2 := by
  rcases op_cases (opField cmd) with h | h | h | h
  · simp [h, decode_op00 h]
  · simp [h, decode_op01 h]
  · simp [h, decode_op10 h]
  · simp [h, decode_op11 h]

/-! ## An edge sees `data` only through the decoded command -/

/-- Inputs with one selector, that of NOP or of INIT, decode alike whatever their data. -/
theorem decode_command_congr {i j : Inputs} (hop : i.op = j.op) (h : i.op = 0b00#2 ∨ i.op = 0b01#2) :
    decode i.command = decode j.command := by
  have hi : opField i.command = i.op := opField_command i
  have hj : opField j.command = i.op := (opField_command j).trans hop.symm
  rcases h with h | h
  · rw [decode_op00 (hi.trans h), decode_op00 (hj.trans h)]
  · rw [decode_op01 (hi.trans h), decode_op01 (hj.trans h)]

/-- Two edges with the same reset, the same read and the same decoded command have the same outcome. -/
theorem clockEdge_congr {i j : Inputs} (hrst : i.rst = j.rst) (hread : i.readCrc = j.readCrc)
    (hdec : decode i.command = decode j.command) (s : State) : clockEdge i s = clockEdge j s := by
  have hcmd : commandEdge i = commandEdge j := by funext t; rw [commandEdge, commandEdge, hrst, hdec]
  rw [clockEdge, clockEdge, hread, hcmd]

/-! ## Reading an assembler line -/

/-- A line that starts with a mnemonic stands for its commands, one step each with `rst = 0`. -/
theorem assembleLine_of_readCommand {line rest : List Char} {cmds : List Instr}
    (hblank : skipBlanks line = line) (hreset : readReset line = (false, line)) (hstart : atEnd line = false)
    (hcmd : readCommand false line = .ok (cmds, rest)) (hend : atEnd rest = true) :
    assembleLine line = .ok (cmds.map presentInstr) := by
  simp only [assembleLine, hblank, hreset, hstart, hcmd, hend, if_true]
  rfl

/-- A blank is no letter, nor is the `;` of a comment. -/
theorem isAlpha_of_isBlank_or_semicolon {c : Char} (h : isBlank c = true ∨ c.toNat = 0x3B) :
    c.isAlpha = false := by
  have hc : c = ' ' ∨ c = '\t' ∨ c = ';' := by
    simp only [← Char.toNat_inj]
    simpa [isBlank, or_assoc] using h
  rcases hc with rfl | rfl | rfl <;> decide

/-- Where an operand may follow, the mnemonic has ended. -/
theorem readWord_of_operandMayFollow {cs : List Char} (h : operandMayFollow cs = true) :
    readWord cs = ([], cs) := by
  cases cs with
  | nil => rfl
  | cons c cs =>
    have hc : isBlank c = true ∨ c.toNat = 0x3B := by
      cases hb : isBlank c
      · exact .inr (by simpa [operandMayFollow, atEnd, skipBlanks, hb] using h)
      · exact .inl rfl
    simp [readWord, isAlpha_of_isBlank_or_semicolon hc]

/-- The mnemonic CRCMSG and what follows it. -/
theorem readWord_crcmsg {ops : List Char} (h : operandMayFollow ops = true) :
    readWord (['C', 'R', 'C', 'M', 'S', 'G'] ++ ops) = (['c', 'r', 'c', 'm', 's', 'g'], ops) := by
  simp [readWord, readWord_of_operandMayFollow h]

/-- A CRCMSG line stands for the steps of `crcmsg` of the message its operands spell (30_encoding.md R70). -/
theorem assembleLine_crcmsg {ops rest : List Char} {bytes : List Byte} (hfollow : operandMayFollow ops = true)
    (hmsg : readMessage ops = .ok (bytes, rest)) (hend : atEnd rest = true) :
    assembleLine (['C', 'R', 'C', 'M', 'S', 'G'] ++ ops) = .ok ((crcmsg bytes).map presentInstr) := by
  have hcmd : readCommand false (['C', 'R', 'C', 'M', 'S', 'G'] ++ ops) = .ok (crcmsg bytes, rest) := by
    rw [readCommand, readWord_crcmsg hfollow]
    simp [hfollow, hmsg]
  exact assembleLine_of_readCommand rfl rfl rfl hcmd hend

/-- A string literal is its characters' codes, up to the closing quote, code 0x22 (30_encoding.md R70). -/
theorem readString_append_quote {cs : List Char} (hascii : ∀ c ∈ cs, c.toNat < 128)
    (hquote : ∀ c ∈ cs, c.toNat ≠ 0x22) (rest : List Char) :
    readString (cs ++ '\x22' :: rest) = .ok (cs.map fun c => BitVec.ofNat 8 c.toNat, rest) := by
  induction cs with
  | nil => rfl
  | cons c cs ih =>
    obtain ⟨hc, hcs⟩ := List.forall_mem_cons.mp hascii
    obtain ⟨hq, hqs⟩ := List.forall_mem_cons.mp hquote
    simp [readString, charByte, hc, hq, ih hcs hqs]

/-- A CRCMSG line with a string literal stands for `crcmsg` of its characters' codes. -/
theorem assembleLine_crcmsg_string {cs : List Char} (hascii : ∀ c ∈ cs, c.toNat < 128)
    (hquote : ∀ c ∈ cs, c.toNat ≠ 0x22) :
    assembleLine (['C', 'R', 'C', 'M', 'S', 'G'] ++ ' ' :: '\x22' :: (cs ++ ['\x22'])) =
      .ok ((crcmsg (cs.map fun c => BitVec.ofNat 8 c.toNat)).map presentInstr) :=
  assembleLine_crcmsg rfl (readString_append_quote hascii hquote []) rfl

/-! ## The expansion of CRCMSG -/

theorem length_crcmsg (bytes : List Byte) : (crcmsg bytes).length = bytes.length + 1 := by
  simp [crcmsg]

/-! ## The obligations -/

/-- Settles O2: a selector is a match under the row's mask, and the decoder goes by the selector. -/
theorem opFieldSelectsCommand : Obligations.OpFieldSelectsCommand := by
  unfold Obligations.OpFieldSelectsCommand
  intro cmd
  exact ⟨opField_eq_iff_and_rowMask cmd 0b00#2, decode_op00, opField_eq_iff_and_rowMask cmd 0b01#2, decode_op01,
    opField_eq_iff_and_rowMask cmd 0b10#2, decode_op10, opField_eq_iff_and_rowMask cmd 0b11#2, decode_op11⟩

/-- Settles O5: a word is NOP or INIT by its selector alone, and an edge goes by the decoded command. -/
theorem nopAndInitIgnoreData : Obligations.NopAndInitIgnoreData := by
  unfold Obligations.NopAndInitIgnoreData
  refine ⟨fun cmd => ?_, fun cmd => ?_, fun i j s hrst hread hop h => ?_, rfl, rfl⟩
  · rw [decode_eq_nop_iff, opField_eq_iff_exists_append]
  · rw [decode_eq_init_iff, opField_eq_iff_exists_append]
  · exact clockEdge_congr hrst hread (decode_command_congr hop h) s

/-- Settles O10: the expansion is `crcmsg` itself, and each line follows from `assembleLine_crcmsg`. -/
theorem crcmsgExpansion : Obligations.CrcmsgExpansion := by
  unfold Obligations.CrcmsgExpansion
  refine ⟨fun bytes => ⟨rfl, length_crcmsg bytes⟩, ?_, ?_, ?_⟩
  · exact assembleLine_crcmsg_string (cs := ['1', '2', '3', '4', '5', '6', '7', '8', '9']) (by simp) (by simp)
  · exact assembleLine_crcmsg (ops := [' ', '0', 'x', '6', '1', ',', ' ', '9', '8']) (bytes := [0x61#8, 0x62#8])
      (rest := []) rfl rfl rfl
  · exact assembleLine_crcmsg (ops := []) (bytes := []) (rest := []) rfl rfl rfl

end Sys2Proof.Machine
end

/-! # Proofs: the nibble processor (40_nibble_processor.md) -/

section
namespace Sys2Proof.Machine

/-! ## The index of a nibble step and the entry it reads -/

@[simp] theorem tableRead_zero : tableRead 0#4 = 0#32 := by decide

/-- When the register's top nibble is the input nibble, the step reads entry 0. -/
theorem nibbleIndex_eq_zero {c : Word} {n : Nibble} (h : c.extractLsb' 28 4 = n) : nibbleIndex c n = 0#4 := by
  rw [nibbleIndex, h, BitVec.xor_self]

@[simp] theorem nibbleIndex_zero_left (n : Nibble) : nibbleIndex 0#32 n = n := by
  rw [nibbleIndex, BitVec.extractLsb'_zero, BitVec.zero_xor]

/-! ## The corner cases of a nibble step -/

theorem nibbleStep_of_topNibble_eq {c : Word} {n : Nibble} (h : c.extractLsb' 28 4 = n) :
    nibbleStep c n = c <<< 4 := by
  rw [nibbleStep, nibbleIndex_eq_zero h, tableRead_zero, BitVec.xor_zero]

theorem nibbleStep_zero_left (n : Nibble) : nibbleStep 0#32 n = tableRead n := by
  rw [nibbleStep, nibbleIndex_zero_left, BitVec.zero_shiftLeft, BitVec.zero_xor]

/-! ## The pieces of a nibble step as numbers -/

/-- A shift right by 28 leaves four bits, so the top nibble needs no mask. -/
theorem word_shiftRight_lt (c : Word) : c.toNat >>> 28 < 16 := by
  rw [Nat.shiftRight_eq_div_pow]
  omega

theorem toNat_topNibble (c : Word) : (c.extractLsb' 28 4).toNat = c.toNat >>> 28 := by
  rw [BitVec.extractLsb'_toNat, Nat.mod_eq_of_lt (word_shiftRight_lt c)]

theorem toNat_nibbleIndex (c : Word) (n : Nibble) : (nibbleIndex c n).toNat = (c.toNat >>> 28) ^^^ n.toNat := by
  rw [nibbleIndex, BitVec.toNat_xor, toNat_topNibble]

theorem toNat_lowNibble (b : Byte) : (lowNibble b).toNat = b.toNat &&& 0xF := by
  rw [lowNibble, BitVec.extractLsb'_toNat, Nat.shiftRight_zero]
  exact (Nat.and_two_pow_sub_one_eq_mod b.toNat 4).symm

theorem toNat_highNibble (b : Byte) : (highNibble b).toNat = b.toNat >>> 4 := by
  have hlt : b.toNat >>> 4 < 2 ^ 4 := by
    rw [Nat.shiftRight_eq_div_pow]
    omega
  rw [highNibble, BitVec.extractLsb'_toNat, Nat.mod_eq_of_lt hlt]

/-- The shift left does need its mask: it keeps the low 32 bits. -/
theorem toNat_word_shiftLeft (c : Word) : (c <<< 4).toNat = (c.toNat <<< 4) &&& 0xFFFFFFFF := by
  rw [BitVec.toNat_shiftLeft]
  exact (Nat.and_two_pow_sub_one_eq_mod (c.toNat <<< 4) 32).symm

/-- The step as a number reads its entry at the unmasked index. -/
theorem toNat_nibbleStep (c : Word) (n : Nibble) :
    (nibbleStep c n).toNat = ((c.toNat <<< 4) &&& 0xFFFFFFFF) ^^^
      (tableRead (BitVec.ofNat 4 ((c.toNat >>> 28) ^^^ n.toNat))).toNat := by
  have hindex : BitVec.ofNat 4 ((c.toNat >>> 28) ^^^ n.toNat) = nibbleIndex c n := by
    rw [← toNat_nibbleIndex, BitVec.ofNat_toNat, BitVec.setWidth_eq]
  rw [nibbleStep, BitVec.toNat_xor, toNat_word_shiftLeft, hindex]

/-! ## The obligations -/

/-- Settles O28: the formula is the definition, its corner cases are index 0 and register 0, and the worked
example is one small closed computation. -/
theorem nibbleStepShiftsAndLooksUp : Obligations.NibbleStepShiftsAndLooksUp := by
  unfold Obligations.NibbleStepShiftsAndLooksUp
  refine ⟨fun c n => rfl, fun c n => nibbleStep_of_topNibble_eq, nibbleStep_zero_left, ?_, by decide⟩
  exact (nibbleStep_zero_left 0#4).trans tableRead_zero

/-- Settles O29: each piece of the step, read as a number, is the source's shift with the source's mask or none. -/
theorem nibbleStepInWiderInteger : Obligations.NibbleStepInWiderInteger := by
  unfold Obligations.NibbleStepInWiderInteger
  exact ⟨word_shiftRight_lt, toNat_lowNibble, toNat_highNibble, toNat_nibbleStep⟩

end Sys2Proof.Machine
end

/-! # Proofs: the commands (41_commands.md) -/

section
namespace Sys2Proof.Machine

/-! ## What each command does to a state -/

@[simp] theorem execAll_nil (s : State) : execAll [] s = .next s := rfl
@[simp] theorem execAll_cons (i : Instr) (is : List Instr) (s : State) :
    execAll (i :: is) s = andThen (exec i s) (execAll is) := rfl

@[simp] theorem exec_nop (s : State) : exec .nop s = .next s := rfl
@[simp] theorem exec_init (s : State) : exec .init s = .next s.loadInitial := rfl

theorem exec_update_val {s : State} {c : Word} (h : s.acc = .val c) (b : Byte) :
    exec (.update b) s = .next (s.setAcc (.val (byteStep c b))) := by
  rw [exec, execUpdate_eq, h, update_val]

theorem exec_update_undef {s : State} (h : s.acc = .undef) (b : Byte) : exec (.update b) s = .next s := by
  rw [exec, execUpdate_eq, setAcc_update_undef h]

/-- Any number of NOPs in a row leaves the state as it is. -/
theorem execAll_replicate_nop (n : Nat) (s : State) : execAll (List.replicate n .nop) s = .next s := by
  induction n with
  | zero => rfl
  | succ n ih => rw [List.replicate_succ, execAll_cons, exec_nop, andThen_next, ih]

/-! ## The words of the commands -/

/-- The word `0x200 + b` is the selector 10 followed by the byte: the sum has no carry into the selector. -/
theorem encode_update (b : Byte) : encode (.update b) = (0b10#2 ++ b : BitVec (2 + 8)) := by
  apply BitVec.eq_of_toNat_eq
  have hb : b.toNat < 2 ^ 8 := b.isLt
  calc (encode (.update b)).toNat
      = (2 <<< 8 + b.toNat % 1024) % 1024 := by rw [encode, BitVec.toNat_add, BitVec.toNat_setWidth]; rfl
    _ = 2 <<< 8 + b.toNat := by omega
    _ = 2 <<< 8 ||| b.toNat := Nat.shiftLeft_add_eq_or_of_lt hb 2
    _ = (0b10#2 ++ b : BitVec (2 + 8)).toNat := (BitVec.toNat_append 0b10#2 b).symm

theorem decode_encode_update (b : Byte) : decode (encode (.update b)) = .update b := by
  rw [encode_update, decode_op10 (opField_append _ b), dataField_append]

theorem decode_command_update {i : Inputs} (h : i.op = 0b10#2) : decode i.command = .update i.data := by
  rw [decode_op10 ((opField_command i).trans h), dataField_command]

/-! ## The edge of a known command -/

/-- Without a reset, an edge performs the command its word decodes to. -/
theorem commandEdge_of_decode {i : Inputs} {cmd : Instr} (hr : i.rst = false) (hd : decode i.command = cmd)
    (s : State) : commandEdge i s = exec cmd s := by
  rw [commandEdge, hr, hd, if_neg Bool.false_ne_true]

/-- A starting edge loads the initial value, whatever the state. -/
theorem commandEdge_of_startsMessage {i : Inputs} (h : startsMessage i = true) (s : State) :
    commandEdge i s = .next s.loadInitial := by
  rcases commandEdge_cases i s with ⟨_, e⟩ | ⟨_, _, hn, _⟩ | ⟨_, _, hn, _⟩ | ⟨_, _, hn, _⟩
  · exact e
  all_goals exact absurd (h.symm.trans hn) (by decide)

/-- With nothing on record and no read, the whole clock edge is the edge of the command. -/
theorem clockEdge_of_noRead {i : Inputs} {s : State} (h : s.clear = true) (hread : i.readCrc = false) :
    clockEdge i s = commandEdge i s := by
  rw [clockEdge_clear h, hread, sampleCrc_false, andThen_next]

/-! ## A message's run of steps -/

/-- A starting step loads the initial value after the host's part. -/
theorem step_of_startsMessage {s : State} (h : s.clear = true) (hread : s.readAllowed = true)
    (hstart : startsMessage s.nextInputs = true) : step s = .next s.afterHost.loadInitial := by
  rw [step_eq_commandEdge h hread, commandEdge_of_startsMessage hstart]

/-- With a value in ACC every read is allowed. -/
theorem readAllowed_of_acc_val {s : State} {c : Word} (h : s.acc = .val c) : s.readAllowed = true := by
  simp [State.readAllowed, State.accDefined, h]

/-- The inputs after a message's start are NOPs and UPDATEs, and only an UPDATE adds a byte (R96 points 2, 3). -/
theorem messageBytes_cons_eq_some {i : Inputs} {is : List Inputs} {bytes : List Byte}
    (h : messageBytes (i :: is) = some bytes) :
    i.rst = false ∧
      ((decode i.command = .nop ∧ messageBytes is = some bytes) ∨
        ∃ b bs, decode i.command = .update b ∧ messageBytes is = some bs ∧ bytes = b :: bs) := by
  rw [messageBytes] at h
  cases hr : i.rst
  · refine ⟨rfl, ?_⟩
    rw [hr, if_neg Bool.false_ne_true] at h
    cases hd : decode i.command with
    | nop => exact .inl ⟨rfl, by simpa [hd] using h⟩
    | init => simp [hd] at h
    | update b =>
      obtain ⟨bs, hbs, hcons⟩ : ∃ bs, messageBytes is = some bs ∧ b :: bs = bytes := by simpa [hd] using h
      exact .inr ⟨b, bs, rfl, hbs, hcons.symm⟩
    | reserved cmd => simp [hd] at h
  · simp [hr] at h

/-- One edge of a message takes the fold one input on: ACC and the bytes still to come have the same checksum. -/
theorem commandEdge_of_messageBytes {i : Inputs} {is : List Inputs} {bytes : List Byte}
    (h : messageBytes (i :: is) = some bytes) {s : State} {c : Word} (hacc : s.acc = .val c) :
    ∃ c' bs, commandEdge i s = .next (s.setAcc (.val c')) ∧ messageBytes is = some bs ∧
      foldBytes c' bs = foldBytes c bytes := by
  obtain ⟨hr, ⟨hd, hbytes⟩ | ⟨b, bs, hd, hbs, rfl⟩⟩ := messageBytes_cons_eq_some h
  · exact ⟨c, bytes, by rw [commandEdge_of_decode hr hd, exec_nop, ← hacc, setAcc_own], hbytes, rfl⟩
  · exact ⟨byteStep c b, bs, by rw [commandEdge_of_decode hr hd, exec_update_val hacc], hbs, rfl⟩

/-- From a value `c` in ACC, the steps of a message leave the fold of its bytes from `c`. -/
theorem runSteps_of_messageBytes {is rest : List Inputs} {bytes : List Byte} {s : State} {c : Word}
    (hclear : s.clear = true) (hacc : s.acc = .val c) (hin : s.inputs = is ++ rest)
    (hbytes : messageBytes is = some bytes) :
    ∃ t, runSteps is.length s = .next t ∧ t.acc = .val (foldBytes c bytes) ∧ t.inputs = rest ∧
      t.clear = true := by
  induction is generalizing s c bytes with
  | nil => cases hbytes; exact ⟨s, rfl, hacc, hin, hclear⟩
  | cons i is ih =>
    obtain ⟨c', bs, hedge, hbs, hfold⟩ := commandEdge_of_messageBytes hbytes (s := s.afterHost) hacc
    have hstep : step s = .next (s.afterHost.setAcc (.val c')) := by
      rw [step_eq_commandEdge hclear (readAllowed_of_acc_val hacc), nextInputs_cons s i _ hin, hedge]
    obtain ⟨t, hrun, hacc_t, hin_t, hclear_t⟩ :=
      ih (s := s.afterHost.setAcc (.val c')) (by simpa using hclear) rfl (by simp [hin]) hbs
    exact ⟨t, runSteps_succ_eq_next.mpr ⟨_, hstep, hrun⟩, hfold ▸ hacc_t, hin_t, hclear_t⟩

/-! ## The obligations -/

/-- Settles O12: with nothing on record and no read an edge is the command's edge, and the ports name its case. -/
theorem edgeFollowsPorts : Obligations.EdgeFollowsPorts := by
  unfold Obligations.EdgeFollowsPorts
  intro s rst op data hclear
  rw [clockEdge_of_noRead hclear rfl]
  refine ⟨fun hr => ?reset,
    fun hr => ⟨fun hop => ?nop, fun hop => ?init, fun hop => ?update, fun hop => ?reserved⟩⟩
  case reset => exact commandEdge_of_startsMessage (startsMessage_iff.mpr (.inl hr)) s
  case nop => rw [commandEdge_of_decode hr (decode_op00 ((opField_command _).trans hop)), exec_nop]
  case init => exact commandEdge_of_startsMessage (startsMessage_iff.mpr (.inr hop)) s
  case update =>
    rw [commandEdge_of_decode hr (decode_command_update hop)]
    exact ⟨fun c hacc => exec_update_val hacc data, fun hacc => exec_update_undef hacc data⟩
  case reserved => exact commandEdge_of_decode hr (decode_op11 ((opField_command _).trans hop)) s

/-- Settles O37: the starting step loads the initial value, and the message's other steps fold its bytes into it. -/
theorem messageChecksum : Obligations.MessageChecksum := by
  unfold Obligations.MessageChecksum
  intro s start tail rest bytes hclear hread hin hstart hbytes
  have hstep : step s = .next s.afterHost.loadInitial :=
    step_of_startsMessage hclear hread (by rwa [nextInputs_cons s start _ hin])
  obtain ⟨t, hrun, hacc, hin_t, hclear_t⟩ :=
    runSteps_of_messageBytes (s := s.afterHost.loadInitial) (rest := rest) (by simpa [State.loadInitial] using hclear)
      (loadInitial_acc _) (by simp [hin]) hbytes
  exact ⟨t, runSteps_succ_eq_next.mpr ⟨_, hstep, hrun⟩, hacc, rfl, hin_t, hclear_t⟩

/-- Settles O19: one NOP keeps the state, so a row of them does, by induction on its length. -/
theorem nopKeepsState : Obligations.NopKeepsState := by
  unfold Obligations.NopKeepsState
  exact ⟨exec_nop, execAll_replicate_nop, fun data => decode_op00 (opField_append _ data)⟩

/-- Settles O20: INIT is `loadInitial`, which a second one repeats. -/
theorem initLoadsAcc : Obligations.InitLoadsAcc := by
  unfold Obligations.InitLoadsAcc
  exact ⟨exec_init, fun s => rfl, fun data => decode_op01 (opField_append _ data), rfl⟩

/-- Settles O21: `byteStep` is the two lookups by definition, and the rule's examples are small closed
computations. -/
theorem updateFoldsByte : Obligations.UpdateFoldsByte := by
  unfold Obligations.UpdateFoldsByte
  refine ⟨fun s c b hacc => exec_update_val hacc b, fun s b hacc => exec_update_undef hacc b, fun s c b hacc => ?_,
    decode_encode_update, by decide, by decide, by decide⟩
  rw [execAll_cons, exec_update_val hacc, andThen_next, execAll_cons, exec_update_val (setAcc_acc _ _), andThen_next,
    execAll_nil, setAcc_setAcc]
  rfl

/-- Settles O22: UPDATE and NOP keep an undefined ACC, and the two starting edges load it. -/
theorem undefinedAccStays : Obligations.UndefinedAccStays := by
  unfold Obligations.UndefinedAccStays
  intro s hacc
  exact ⟨exec_update_undef hacc, exec_nop s, exec_init s,
    fun i hr => commandEdge_of_startsMessage (startsMessage_iff.mpr (.inl hr)) s⟩

/-- Settles O35: no byte is folded into the initial value that the starting step loads. -/
theorem emptyMessageChecksum : Obligations.EmptyMessageChecksum := by
  unfold Obligations.EmptyMessageChecksum
  exact ⟨rfl, fun s hclear hread hstart => ⟨_, step_of_startsMessage hclear hread hstart, rfl⟩⟩

/-- Settles O36: nine byte steps from the initial value are one closed computation. -/
theorem referenceVector : Obligations.ReferenceVector := by
  unfold Obligations.ReferenceVector
  decide

end Sys2Proof.Machine
end

/-! # Proofs: the exceptions (60_exceptions.md) -/

section
namespace Sys2Proof.Machine

/-- UPDATE on every ACC, a value or undefined: only ACC is written. -/
theorem exec_update (b : Byte) (s : State) : exec (.update b) s = .next (s.setAcc (s.acc.update b)) :=
  execUpdate_eq b s

/-! ## The obligations -/

/-- Settles O25: NOP answers the state itself, and the states that INIT and UPDATE answer differ from it in ACC
alone. -/
theorem noCommandFaults : Obligations.NoCommandFaults := by
  unfold Obligations.NoCommandFaults
  rintro i s (rfl | rfl | ⟨b, rfl⟩)
  · exact ⟨s, exec_nop s, rfl, rfl⟩
  · exact ⟨s.loadInitial, exec_init s, loadInitial_faultRecord s, loadInitial_refusalMark s⟩
  · exact ⟨s.setAcc (s.acc.update b), exec_update b s, setAcc_faultRecord s _, setAcc_refusalMark s _⟩

end Sys2Proof.Machine
end

/-! # Proofs: reset and hazards (70_reset_and_hazards.md) -/

section
namespace Sys2Proof.Machine

/-! ## Steps on which the host does not read -/

/-- With nothing on record and no read, a step is the edge of the command presented. -/
theorem step_of_noRead {s : State} (h : s.clear = true) (hread : s.nextInputs.readCrc = false) :
    step s = commandEdge s.nextInputs s.dropInputs :=
  clockEdge_of_noRead h hread

/-- Without a read, the step that keeps its stops on record keeps that of the command's edge alone. -/
theorem recordedEdge_of_noRead {i : Inputs} (hread : i.readCrc = false) (s : State) :
    recordedEdge i s = recordOutcome s (commandEdge i s) := by
  rw [recordedEdge, hread, sampleCrc_false, recordOutcome_next]

/-- A reset edge loads the initial value, whatever `op` and `data` are (R130). -/
theorem commandEdge_of_rst {i : Inputs} (h : i.rst = true) (s : State) : commandEdge i s = .next s.loadInitial :=
  commandEdge_of_startsMessage (startsMessage_iff.mpr (.inl h)) s

/-- The edge of a reserved selector without a reset is the refusal with the presented word. -/
theorem commandEdge_of_op11 {i : Inputs} (hr : i.rst = false) (hop : i.op = 0b11#2) (s : State) :
    commandEdge i s = .refused (.reserved i.command) :=
  commandEdge_of_decode hr (decode_op11 ((opField_command i).trans hop)) s

/-! ## The number of a message's steps -/

/-- The inputs after a message's start are one UPDATE per byte and the NOPs the host adds (R142). -/
theorem length_of_messageBytes {is : List Inputs} {bytes : List Byte} (h : messageBytes is = some bytes) :
    is.length = bytes.length + is.countP fun i => decide (decode i.command = .nop) := by
  induction is generalizing bytes with
  | nil => cases h; rfl
  | cons i is ih =>
    obtain ⟨_, ⟨hd, hbytes⟩ | ⟨b, bs, hd, hbs, rfl⟩⟩ := messageBytes_cons_eq_some h
    · rw [List.length_cons, ih hbytes, List.countP_cons_of_pos (by simp [hd]), Nat.add_assoc]
    · rw [List.length_cons, ih hbs, List.countP_cons_of_neg (by simp [hd]), List.length_cons, Nat.add_right_comm]

/-! ## The obligations -/

/-- Settles O39: the run is that of `messageChecksum`, and `length_of_messageBytes` counts its steps. -/
theorem messageTakesOneStepPerByte : Obligations.MessageTakesOneStepPerByte := by
  unfold Obligations.MessageTakesOneStepPerByte
  intro s start tail rest bytes hclear hread hin hstart hbytes
  obtain ⟨t, hrun, hcrc, hsum, hin_t, _⟩ := messageChecksum s start tail rest bytes hclear hread hin hstart hbytes
  refine ⟨t, ?_, hsum ▸ hcrc, hin_t⟩
  rwa [Nat.add_right_comm, ← length_of_messageBytes hbytes]

/-- Settles O13: the step is the reset's edge, after the record is taken from the host's list. -/
theorem resetStepLoadsAcc : Obligations.ResetStepLoadsAcc := by
  unfold Obligations.ResetStepLoadsAcc
  intro s op data rest hclear hin
  refine ⟨?_, rfl⟩
  rw [step_cons s _ rest hin, clockEdge_of_noRead ((clear_inputs s rest).trans hclear) rfl, commandEdge_of_rst rfl]
  rfl

/-- Settles O16: the reset's edge gives a next state, so nothing is recorded, and it loads ACC alone. -/
theorem resetKeepsRecords : Obligations.ResetKeepsRecords := by
  unfold Obligations.ResetKeepsRecords
  intro s i hr hread
  rw [recordedEdge_of_noRead hread, commandEdge_of_rst hr, recordOutcome_next]
  rfl

/-- Settles O23: the step is the edge of a reserved selector, from any state with nothing on record. -/
theorem reservedWordRefusesRun : Obligations.ReservedWordRefusesRun := by
  unfold Obligations.ReservedWordRefusesRun
  refine ⟨execReserved_eq, fun s hclear hread hr hop => ?_⟩
  rw [step_of_noRead hclear hread, commandEdge_of_op11 hr hop]

end Sys2Proof.Machine
end

/-! # Proofs: every word and its command (30_encoding.md sections 2 and 3) -/

section
namespace Sys2Proof.Machine

/-! ## Which words decode to UPDATE and to the reserved command -/

/-- Only the assembler's word decodes to an UPDATE: its byte is the word's data. -/
theorem decode_eq_update_iff (cmd : Command) (b : Byte) : decode cmd = .update b ↔ cmd = encode (.update b) := by
  refine ⟨fun h => ?_, fun h => h ▸ decode_encode_update b⟩
  rcases op_cases (opField cmd) with hop | hop | hop | hop
  · simp [decode_op00 hop] at h
  · simp [decode_op01 hop] at h
  · have hb : dataField cmd = b := by simpa [decode_op10 hop] using h
    rw [encode_update, ← hb, ← hop, append_fields]
  · simp [decode_op11 hop] at h

theorem decode_eq_reserved_iff (cmd : Command) : decode cmd = .reserved cmd ↔ opField cmd = 0b11#2 := by
  rcases op_cases (opField cmd) with h | h | h | h
  · simp [h, decode_op00 h]
  · simp [h, decode_op01 h]
  · simp [h, decode_op10 h]
  · simp [h, decode_op11 h]

/-! ## Encoding and decoding undo each other -/

/-- A well-formed reserved command carries a word of the reserved row. -/
theorem opField_of_wellFormed_reserved {cmd : Command} (h : (Instr.reserved cmd).wellFormed = true) :
    opField cmd = 0b11#2 :=
  eq_of_beq h

theorem decode_encode {i : Instr} (h : i.wellFormed = true) : decode (encode i) = i := by
  cases i with
  | nop => exact decode_op00 rfl
  | init => exact decode_op01 rfl
  | update b => exact decode_encode_update b
  | reserved cmd => exact decode_op11 (opField_of_wellFormed_reserved h)

theorem wellFormed_decode (cmd : Command) : (decode cmd).wellFormed = true := by
  rcases op_cases (opField cmd) with h | h | h | h
  · rw [decode_op00 h]; rfl
  · rw [decode_op01 h]; rfl
  · rw [decode_op10 h]; rfl
  · rw [decode_op11 h]; exact beq_of_eq h

/-- NOP and INIT words come back with their data cleared, the other words as they are. -/
theorem encode_decode (cmd : Command) :
    encode (decode cmd) =
      if opField cmd = 0b00#2 ∨ opField cmd = 0b01#2 then cmd &&& 0x300#10 else cmd := by
  rcases op_cases (opField cmd) with h | h | h | h
  · rw [decode_op00 h, if_pos (.inl h), (opField_eq_iff_and_rowMask cmd _).mp h]; rfl
  · rw [decode_op01 h, if_pos (.inr h), (opField_eq_iff_and_rowMask cmd _).mp h]; rfl
  · rw [decode_op10 h, if_neg (by simp [h]), encode_update, ← h, append_fields]
  · rw [decode_op11 h, if_neg (by simp [h])]; rfl

/-! ## The rows of the opcode table -/

/-- A row of the table covers the words of its own selector. -/
theorem covers_row_iff (cmd : Command) :
    (Instr.nop.row.covers cmd = true ↔ opField cmd = 0b00#2) ∧
    (Instr.init.row.covers cmd = true ↔ opField cmd = 0b01#2) ∧
    (∀ b, (Instr.update b).row.covers cmd = true ↔ opField cmd = 0b10#2) ∧
    (∀ w, (Instr.reserved w).row.covers cmd = true ↔ opField cmd = 0b11#2) := by
  have hrow (op : OpField) : (cmd &&& 0x300#10 == (op ++ 0#8 : BitVec (2 + 8))) = true ↔ opField cmd = op :=
    beq_iff_eq.trans (opField_eq_iff_and_rowMask cmd op).symm
  exact ⟨hrow 0b00#2, hrow 0b01#2, fun _ => hrow 0b10#2, fun _ => hrow 0b11#2⟩

theorem covers_row_decode (cmd : Command) : (decode cmd).row.covers cmd = true := by
  obtain ⟨hnop, hinit, hupdate, hreserved⟩ := covers_row_iff cmd
  rcases op_cases (opField cmd) with h | h | h | h
  · rw [decode_op00 h]; exact hnop.mpr h
  · rw [decode_op01 h]; exact hinit.mpr h
  · rw [decode_op10 h]; exact (hupdate _).mpr h
  · rw [decode_op11 h]; exact (hreserved _).mpr h

/-- A word has one selector, so one row of the table covers it. -/
theorem countP_covers (cmd : Command) : (opcodeTable.countP fun r => r.covers cmd) = 1 := by
  obtain ⟨hnop, hinit, hupdate, hreserved⟩ := covers_row_iff cmd
  rcases op_cases (opField cmd) with h | h | h | h <;>
    simp [opcodeTable, hnop, hinit, hupdate, hreserved, h]

/-- The row of a command does not depend on its operand. -/
theorem row_mem_opcodeTable (i : Instr) : i.row ∈ opcodeTable := by
  cases i with
  | nop => exact .head _
  | init => exact .tail _ (.head _)
  | update b => exact .tail _ (.tail _ (.head _))
  | reserved cmd => exact .tail _ (.tail _ (.tail _ (.head _)))

/-! ## Counting words by their selector -/

/-- The selector of a word, as a number, is the word's number divided by 256. -/
theorem toNat_opField (cmd : Command) : (opField cmd).toNat = cmd.toNat / 256 := by
  have hlt : cmd.toNat < 1024 := cmd.isLt
  rw [opField, BitVec.extractLsb'_toNat, Nat.shiftRight_eq_div_pow]
  omega

/-- Each selector belongs to the 256 words of one block. -/
theorem countP_opField (op : OpField) :
    ((List.range 1024).countP fun w => opField (BitVec.ofNat 10 w) = op) = 256 := by
  have hblock : (Finset.range 1024).filter (fun w => opField (BitVec.ofNat 10 w) = op) =
      Finset.Ico (256 * op.toNat) (256 * op.toNat + 256) := by
    ext w
    have hop : op.toNat < 4 := op.isLt
    rw [Finset.mem_filter, Finset.mem_range, Finset.mem_Ico, ← BitVec.toNat_inj, toNat_opField, BitVec.toNat_ofNat]
    omega
  calc (List.range 1024).countP (fun w => opField (BitVec.ofNat 10 w) = op)
      = ((Finset.range 1024).filter fun w => opField (BitVec.ofNat 10 w) = op).card :=
        Nat.count_eq_card_filter_range _ 1024
    _ = 256 := by rw [hblock, Nat.card_Ico, Nat.add_sub_cancel_left]

/-- A command to which exactly the words of one selector decode has 256 encodings. -/
theorem countP_decode {f : Command → Instr} {op : OpField} (h : ∀ cmd, decode cmd = f cmd ↔ opField cmd = op) :
    ((List.range 1024).countP fun w => decode (BitVec.ofNat 10 w) == f (BitVec.ofNat 10 w)) = 256 := by
  rw [← countP_opField op]
  exact List.countP_congr fun w _ => by simp [h]

/-! ## The assembler -/

/-- The ports carry the encoded word of the command that is presented. -/
theorem command_presentInstr (i : Instr) : (presentInstr i).command = encode i := command_presentWord (encode i)

theorem checkByte_of_le {n : Nat} (h : n ≤ 255) : checkByte n = .ok (BitVec.ofNat 8 n) := if_pos h

theorem checkByte_of_lt {n : Nat} (h : 255 < n) : checkByte n = .error (.outOfRange n) := if_neg (Nat.not_le.mpr h)

/-- The host presents an element's low eight bits: its remainder by 256 (70_reset_and_hazards.md R136). -/
theorem toNat_hostByte (e : Nat) : (hostByte e).toNat = e % 256 := by
  have hmask : e &&& 0xFF = e % 256 := Nat.and_two_pow_sub_one_eq_mod e 8
  rw [hostByte, hmask, BitVec.toNat_ofNat, Nat.mod_mod]

theorem hostByte_and_mask (e : Nat) : hostByte e = hostByte (e &&& 0xFF) := by
  rw [hostByte, hostByte, Nat.and_assoc, Nat.and_self]

/-! ## The obligations -/

/-- Settles O6: by cases on the command; the reserved row is where well-formedness is needed. -/
theorem decodeOfEncode : Obligations.DecodeOfEncode := by
  unfold Obligations.DecodeOfEncode
  exact fun i => decode_encode

/-- Settles O1: the eight words' selectors name their commands. -/
theorem commandWordsDecode : Obligations.CommandWordsDecode := by
  unfold Obligations.CommandWordsDecode
  exact ⟨decode_op00 rfl, decode_op00 rfl, decode_op01 rfl, decode_op01 rfl, decode_op10 rfl, decode_op10 rfl,
    decode_op11 rfl, decode_op11 rfl⟩

/-- Settles O3: NOP, INIT and the reserved command take one selector's 256 words each, and the word of an UPDATE
is unique by `decode_eq_update_iff`. -/
theorem allWordsClassified : Obligations.AllWordsClassified := by
  unfold Obligations.AllWordsClassified
  exact ⟨countP_decode (f := fun _ => .nop) decode_eq_nop_iff, countP_decode (f := fun _ => .init) decode_eq_init_iff,
    countP_decode (f := .reserved) decode_eq_reserved_iff,
    fun b => ⟨encode (.update b), decode_encode_update b, fun cmd' => (decode_eq_update_iff cmd' b).mp⟩⟩

/-- Settles O4: a row covers the words of its selector, and a word has one selector. -/
theorem rowsDoNotOverlap : Obligations.RowsDoNotOverlap := by
  unfold Obligations.RowsDoNotOverlap
  exact fun cmd => ⟨countP_covers cmd, covers_row_decode cmd, row_mem_opcodeTable _⟩

/-- Settles O7: by cases on the word's selector, `encode_decode`. -/
theorem encodeOfDecode : Obligations.EncodeOfDecode := by
  unfold Obligations.EncodeOfDecode
  exact fun cmd => ⟨wellFormed_decode cmd, encode_decode cmd⟩

/-- Settles O8: the presented word is the encoded one, and each written-out line is a closed computation of the
assembler. -/
theorem assemblerLines : Obligations.AssemblerLines := by
  unfold Obligations.AssemblerLines
  exact ⟨command_presentInstr .nop, command_presentInstr .init, fun b => command_presentInstr (.update b),
    rfl, rfl, rfl, rfl, rfl, rfl⟩

/-- Settles O9: 255 is the largest number that the operand check lets through, and it needs no mask. -/
theorem operandOutOfRangeIsError : Obligations.OperandOutOfRangeIsError := by
  unfold Obligations.OperandOutOfRangeIsError
  refine ⟨fun n => checkByte_of_lt, fun n hn => ⟨BitVec.ofNat 8 n, checkByte_of_le hn, ?_⟩⟩
  rw [BitVec.toNat_ofNat, Nat.mod_eq_of_lt (by omega)]

/-- Settles O44: the mask is the remainder by 256, and masking twice is masking once. -/
theorem hostMasksElements : Obligations.HostMasksElements := by
  unfold Obligations.HostMasksElements
  exact ⟨toNat_hostByte, hostByte_and_mask, rfl, rfl⟩

end Sys2Proof.Machine
end

/-! # Proofs: the bit-serial register (10_state.md section 3, 40_nibble_processor.md, 41_commands.md R94) -/

section
namespace Sys2Proof.Machine

/-! ## A field at the top of the register -/

/-- A field read after a shift left is the field so many places lower before it. -/
theorem extractLsb'_word_shiftLeft {c : Word} {k start len : Nat} (hk : k ≤ start) (hlen : start + len ≤ 32) :
    (c <<< k).extractLsb' start len = c.extractLsb' (start - k) len := by
  ext i hi
  have hlt : start + i < 32 := by omega
  have hge : ¬ start + i < k := by omega
  simp only [BitVec.getElem_extractLsb', BitVec.getLsbD_shiftLeft, hlt, hge, Nat.sub_add_comm hk]
  rfl

theorem nibbleAtTop_xor (m n : Nibble) : nibbleAtTop (m ^^^ n) = nibbleAtTop m ^^^ nibbleAtTop n := by
  have happend := BitVec.xor_append (x₁ := m) (x₂ := n) (y₁ := 0#28) (y₂ := 0#28)
  rw [BitVec.xor_self] at happend
  exact happend.symm

theorem topNibble_nibbleAtTop (n : Nibble) : (nibbleAtTop n).extractLsb' 28 4 = n :=
  BitVec.extractLsb'_append_eq_left

theorem nibbleAtTop_shiftLeft (n : Nibble) : nibbleAtTop n <<< 4 = 0#32 := by
  revert n; decide

theorem topByte_byteAtTop (b : Byte) : (byteAtTop b).extractLsb' 24 8 = b :=
  BitVec.extractLsb'_append_eq_left

/-- A byte at the top is its high nibble there and its low nibble four places further down. -/
theorem byteAtTop_eq_nibbles (b : Byte) :
    byteAtTop b = nibbleAtTop (highNibble b) ^^^ (nibbleAtTop (lowNibble b) >>> 4) := by
  revert b; decide

/-! ## Four steps of the register -/

/-- A register whose top nibble is clear only shifts, four times over. -/
theorem red4_of_topNibble_clear {v : Word} (h : v.extractLsb' 28 4 = 0#4) : red4 v = v <<< 4 := by
  have hstep (k : Nat) (hk : k < 4) : red1 (v <<< k) = v <<< (k + 1) := by
    have hbit : v.getLsbD (28 + (3 - k)) = false := by
      have hnibble := congrArg (·.getLsbD (3 - k)) h
      simpa [show 3 - k < 4 by omega] using hnibble
    have htop : (v <<< k).getLsbD 31 = false := by
      rw [BitVec.getLsbD_shiftLeft, show 31 - k = 28 + (3 - k) by omega, hbit, Bool.and_false]
    rw [red1_of_topBit_clear htop, ← BitVec.shiftLeft_add]
  calc red4 v
      = red4 (v <<< 0) := by rw [BitVec.shiftLeft_zero]
    _ = v <<< 4 := by
        rw [red4, hstep 0 (by decide), hstep 1 (by decide), hstep 2 (by decide), hstep 3 (by decide)]

/-- TABLE holds the reductions of its indexes (10_state.md R25): sixteen small computations. -/
theorem tableRead_eq_red4 : ∀ i : Nibble, tableRead i = red4 (nibbleAtTop i) := by
  decide

/-- The low nibble of a byte, four places below the top, is at the top after four steps. -/
theorem red4_nibbleAtTop_shiftRight (n : Nibble) : red4 (nibbleAtTop n >>> 4) = nibbleAtTop n := by
  revert n; decide

/-! ## The nibble step and the byte step as steps of the register -/

/-- The nibble step is four steps of the register (40_nibble_processor.md R83): the index's own reduction is its
TABLE entry, and the rest of the register, its top nibble cleared, only shifts. -/
theorem nibbleStep_eq_red4 (c : Word) (n : Nibble) : nibbleStep c n = red4 (c ^^^ nibbleAtTop n) := by
  let top := c.extractLsb' 28 4
  have hsplit : c ^^^ nibbleAtTop n = (c ^^^ nibbleAtTop top) ^^^ nibbleAtTop (nibbleIndex c n) := by
    rw [nibbleIndex, nibbleAtTop_xor, BitVec.xor_assoc, ← BitVec.xor_assoc (nibbleAtTop top), BitVec.xor_self,
      BitVec.zero_xor]
  have hclear : (c ^^^ nibbleAtTop top).extractLsb' 28 4 = 0#4 := by
    rw [BitVec.extractLsb'_xor, topNibble_nibbleAtTop, BitVec.xor_self]
  have hshift : (c ^^^ nibbleAtTop top) <<< 4 = c <<< 4 := by
    rw [BitVec.shiftLeft_xor_distrib, nibbleAtTop_shiftLeft, BitVec.xor_zero]
  rw [hsplit, red4_xor, red4_of_topNibble_clear hclear, hshift, ← tableRead_eq_red4, nibbleStep]

theorem nibbleStep_xor (c₁ c₂ : Word) (n₁ n₂ : Nibble) :
    nibbleStep (c₁ ^^^ c₂) (n₁ ^^^ n₂) = nibbleStep c₁ n₁ ^^^ nibbleStep c₂ n₂ := by
  simp only [nibbleStep_eq_red4, nibbleAtTop_xor, ← red4_xor]
  congr 1
  ac_rfl

theorem tableRead_xor (i j : Nibble) : tableRead (i ^^^ j) = tableRead i ^^^ tableRead j := by
  simp only [tableRead_eq_red4, nibbleAtTop_xor, red4_xor]

theorem byteStep_eq_red4 (c : Word) (b : Byte) :
    byteStep c b = red4 (red4 (c ^^^ nibbleAtTop (highNibble b)) ^^^ nibbleAtTop (lowNibble b)) := by
  rw [byteStep, nibbleStep_eq_red4, nibbleStep_eq_red4]

/-- The byte step is eight steps of the register: the low nibble waits four steps below the top. -/
theorem byteStep_eq_iterate_red1 (c : Word) (b : Byte) : byteStep c b = red1^[8] (c ^^^ byteAtTop b) := by
  calc byteStep c b
      = red4 (red4 (c ^^^ nibbleAtTop (highNibble b)) ^^^ nibbleAtTop (lowNibble b)) := byteStep_eq_red4 c b
    _ = red4 (red4 ((c ^^^ nibbleAtTop (highNibble b)) ^^^ (nibbleAtTop (lowNibble b) >>> 4))) := by
        rw [red4_xor (c ^^^ nibbleAtTop (highNibble b)), red4_nibbleAtTop_shiftRight]
    _ = red4 (red4 (c ^^^ byteAtTop b)) := by rw [byteAtTop_eq_nibbles, BitVec.xor_assoc]

/-! ## A byte equal to the register's top byte -/

theorem extractLsb'_topByte (c : Word) {start len : Nat} (h : start + len ≤ 8) :
    (c.extractLsb' 24 8).extractLsb' start len = c.extractLsb' (24 + start) len := by
  ext i hi
  have hlt : start + i < 8 := by omega
  simp [hlt, Nat.add_assoc]

theorem highNibble_topByte (c : Word) : highNibble (c.extractLsb' 24 8) = c.extractLsb' 28 4 :=
  extractLsb'_topByte c (by decide)

theorem lowNibble_topByte (c : Word) : lowNibble (c.extractLsb' 24 8) = c.extractLsb' 24 4 :=
  extractLsb'_topByte c (by decide)

/-- Both nibbles of the byte meet their own value at the top, so both lookups read entry 0. -/
theorem byteStep_topByte (c : Word) : byteStep c (c.extractLsb' 24 8) = c <<< 8 := by
  have hlow : (c <<< 4).extractLsb' 28 4 = lowNibble (c.extractLsb' 24 8) := by
    rw [extractLsb'_word_shiftLeft (by decide) (by decide), lowNibble_topByte]
  rw [byteStep, nibbleStep_of_topNibble_eq (highNibble_topByte c).symm, nibbleStep_of_topNibble_eq hlow,
    ← BitVec.shiftLeft_add]

/-! ## Nothing is lost in the register -/

/-- The polynomial is odd, so the bit that a step shifts out is its bit 0 afterwards. -/
theorem getLsbD_zero_red1 (v : Word) : (red1 v).getLsbD 0 = v.getLsbD 31 := by
  have hpoly : Config.polynomial.getLsbD 0 = true := by decide
  cases h : v.getLsbD 31
  · rw [red1, h, if_neg Bool.false_ne_true, BitVec.getLsbD_shiftLeft]; rfl
  · rw [red1, h, if_pos rfl, BitVec.getLsbD_xor, hpoly, BitVec.getLsbD_shiftLeft]; rfl

theorem eq_zero_of_red1_eq_zero {v : Word} (h : red1 v = 0#32) : v = 0#32 := by
  have htop : v.getLsbD 31 = false := by rw [← getLsbD_zero_red1, h, BitVec.getLsbD_zero]
  have hshift : v <<< 1 = 0#32 := by rw [← red1_of_topBit_clear htop, h]
  ext i hi
  rcases Nat.lt_or_ge i 31 with hlt | hge
  · have hbit := congrArg (·.getLsbD (i + 1)) hshift
    simpa [BitVec.getLsbD_eq_getElem hi, Nat.succ_lt_succ hlt] using hbit
  · obtain rfl : i = 31 := by omega
    simpa using htop

/-- By linearity: a difference that one step loses is a register that reduces to 0. -/
theorem red1_injective : Function.Injective red1 := by
  intro v w h
  have hzero : red1 (v ^^^ w) = 0#32 := by rw [red1_xor, h, BitVec.xor_self]
  exact BitVec.xor_eq_zero_iff.mp (eq_zero_of_red1_eq_zero hzero)

/-- Two byte steps agree only where register and byte do so together. -/
theorem byteStep_eq_byteStep_iff {c c' : Word} {b b' : Byte} :
    byteStep c b = byteStep c' b' ↔ c ^^^ byteAtTop b = c' ^^^ byteAtTop b' := by
  rw [byteStep_eq_iterate_red1, byteStep_eq_iterate_red1, (red1_injective.iterate 8).eq_iff]

theorem byteStep_left_injective (b : Byte) : Function.Injective fun c => byteStep c b :=
  fun _ _ h => (BitVec.xor_left_inj _).mp (byteStep_eq_byteStep_iff.mp h)

theorem byteStep_right_injective (c : Word) : Function.Injective (byteStep c) := by
  intro b b' h
  have htop : byteAtTop b = byteAtTop b' := (BitVec.xor_right_inj _).mp (byteStep_eq_byteStep_iff.mp h)
  rw [← topByte_byteAtTop b, htop, topByte_byteAtTop]

/-! ## The obligations -/

/-- Settles O27: each of the sixteen entries is one small closed computation. -/
theorem tableIsBitSerialReduction : Obligations.TableIsBitSerialReduction := by
  unfold Obligations.TableIsBitSerialReduction
  exact tableRead_eq_red4

/-- Settles O30: `nibbleStep_eq_red4`, where `red4` takes the index and the rest of the register apart. -/
theorem nibbleStepIsBitSerial : Obligations.NibbleStepIsBitSerial := by
  unfold Obligations.NibbleStepIsBitSerial
  exact nibbleStep_eq_red4

/-- Settles O31: TABLE and the nibble step are `red4` of something linear, and `red4` is linear. -/
theorem nibbleStepIsLinear : Obligations.NibbleStepIsLinear := by
  unfold Obligations.NibbleStepIsLinear
  exact ⟨tableRead_xor, nibbleStep_xor⟩

/-- Settles O32: the order of the nibbles is the definition's, and the rest is `nibbleStep_eq_red4` for each. -/
theorem byteStepIsEightBitSerialSteps : Obligations.ByteStepIsEightBitSerialSteps := by
  unfold Obligations.ByteStepIsEightBitSerialSteps
  exact fun c b => ⟨rfl, byteStep_eq_red4 c b, byteStep_eq_iterate_red1 c b⟩

/-- Settles O33: both nibble steps of that byte read entry 0 of TABLE. -/
theorem ownTopByteOnlyShifts : Obligations.OwnTopByteOnlyShifts := by
  unfold Obligations.OwnTopByteOnlyShifts
  exact byteStep_topByte

/-- Settles O34: the bit-serial step is injective, so eight of them are. -/
theorem updateIsInjectiveInAcc : Obligations.UpdateIsInjectiveInAcc := by
  unfold Obligations.UpdateIsInjectiveInAcc
  exact fun c c' b h => byteStep_left_injective b h

end Sys2Proof.Machine
end

/-! # Proofs: one step, its stops and its frame (41_commands.md section 1, 60_exceptions.md, 70_reset_and_hazards.md) -/

section
namespace Sys2Proof.Machine

/-! ## The edge of a command, by what it makes of ACC -/

theorem accAfter_of_op11 {i : Inputs} (hr : i.rst = false) (hop : i.op = 0b11#2) (a : Acc) :
    accAfter a i = .undef := by
  simp [accAfter, hr, hop]

/-- The inputs present no reserved word without a reset: the two spellings of the condition that the statements use. -/
theorem notReserved_iff {i : Inputs} :
    (i.rst = true ∨ i.op ≠ 0b11#2) ↔ ¬ (i.rst = false ∧ i.op = 0b11#2) := by
  simp [imp_iff_not_or]

/-- Every edge but that of a reserved word without a reset goes through, and it writes ACC alone. -/
theorem commandEdge_of_notReserved {i : Inputs} (h : i.rst = true ∨ i.op ≠ 0b11#2) (s : State) :
    commandEdge i s = .next (s.setAcc (accAfter s.acc i)) := by
  rcases commandEdge_cases i s with ⟨hs, e⟩ | ⟨hr, hop, _, e⟩ | ⟨hr, hop, _, e⟩ | ⟨hr, hop, _, _⟩
  · rw [e, accAfter_of_startsMessage hs, State.loadInitial]
  · rw [e, accAfter_of_nop hr hop, setAcc_own]
  · rw [e, accAfter_of_update hr hop]
  · exact absurd hop (h.resolve_left (by simp [hr]))

/-- An edge that goes through leaves ACC defined where it was so before, and where it starts a message. -/
theorem commandEdge_accDefined {i : Inputs} {s t : State} (h : commandEdge i s = .next t) :
    t.accDefined = (s.accDefined || startsMessage i) := by
  rcases commandEdge_cases i s with ⟨hs, e⟩ | ⟨_, _, hs, e⟩ | ⟨_, _, hs, e⟩ | ⟨_, _, _, e⟩
  · rw [e] at h; cases h; simp [State.accDefined, hs]
  · rw [e] at h; cases h; simp [hs]
  · rw [e] at h; cases h; simp [State.accDefined, hs, update_eq_undef]
  · rw [e] at h; cases h

/-- No command changes anything but ACC. -/
theorem exec_setAcc {i : Instr} {s t : State} (h : exec i s = .next t) : t = s.setAcc t.acc := by
  cases i with
  | nop => cases h; rfl
  | init => cases h; rfl
  | update b => cases h; rfl
  | reserved cmd => cases h

/-! ## The host's part of a step -/

theorem readAllowed_of_noRead {s : State} (h : s.nextInputs.readCrc = false) : s.readAllowed = true := by
  simp [State.readAllowed, h]

theorem readAllowed_eq_false_iff {s : State} :
    s.readAllowed = false ↔ s.nextInputs.readCrc = true ∧ s.acc = .undef := by
  simp [State.readAllowed, State.accDefined]

theorem afterHost_of_noRead {s : State} (h : s.nextInputs.readCrc = false) : s.afterHost = s.dropInputs := by
  simp [State.afterHost, h, State.dropInputs]

theorem afterHost_observed_of_read {s : State} {c : Word} (h : s.nextInputs.readCrc = true) (hacc : s.acc = .val c) :
    s.afterHost.observed = s.observed ++ [c] := by
  simp [State.afterHost, h, hacc]

/-! ## When a step goes through -/

/-- With nothing on record, an allowed read and no reserved word, a step goes through and writes ACC alone. -/
theorem step_of_notReserved {s : State} (h : s.clear = true) (hread : s.readAllowed = true)
    (hcmd : s.nextInputs.rst = true ∨ s.nextInputs.op ≠ 0b11#2) :
    step s = .next (s.afterHost.setAcc (accAfter s.acc s.nextInputs)) := by
  rw [step_eq_commandEdge h hread, commandEdge_of_notReserved hcmd, afterHost_acc]

/-- With an allowed read, a step refuses a reserved word presented without a reset. -/
theorem step_of_reserved {s : State} (h : s.clear = true) (hread : s.readAllowed = true)
    (hr : s.nextInputs.rst = false) (hop : s.nextInputs.op = 0b11#2) :
    step s = .refused (.reserved s.nextInputs.command) := by
  rw [step_eq_commandEdge h hread, commandEdge_of_op11 hr hop]

/-- Everything a step can do with nothing on record, with what decides it. -/
theorem step_cases {s : State} (h : s.clear = true) :
    (s.readAllowed = false ∧ step s = .fault .undefObserved) ∨
    (s.readAllowed = true ∧ s.nextInputs.rst = false ∧ s.nextInputs.op = 0b11#2 ∧
      step s = .refused (.reserved s.nextInputs.command)) ∨
    (s.readAllowed = true ∧ (s.nextInputs.rst = true ∨ s.nextInputs.op ≠ 0b11#2) ∧
      step s = .next (s.afterHost.setAcc (accAfter s.acc s.nextInputs))) := by
  cases hread : s.readAllowed
  · exact .inl ⟨rfl, step_forbidden_read h hread⟩
  · by_cases hword : s.nextInputs.rst = false ∧ s.nextInputs.op = 0b11#2
    · obtain ⟨hr, hop⟩ := hword
      exact .inr (.inl ⟨rfl, hr, hop, step_of_reserved h hread hr hop⟩)
    · have hcmd := notReserved_iff.mpr hword
      exact .inr (.inr ⟨rfl, hcmd, step_of_notReserved h hread hcmd⟩)

/-! ## What a step that goes through leaves -/

/-- It leaves the state after the host's part, with another ACC. -/
theorem step_setAcc {s t : State} (h : step s = .next t) : t = s.afterHost.setAcc t.acc := by
  obtain ⟨_, _, hedge⟩ := step_eq_next.mp h
  exact commandEdge_setAcc hedge

theorem clear_of_step {s t : State} (h : step s = .next t) : t.clear = true := by
  obtain ⟨hclear, _, _⟩ := step_eq_next.mp h
  rwa [step_setAcc h, clear_setAcc, clear_afterHost]

theorem step_accDefined {s t : State} (h : step s = .next t) :
    t.accDefined = (s.accDefined || startsMessage s.nextInputs) := by
  obtain ⟨_, _, hedge⟩ := step_eq_next.mp h
  exact (commandEdge_accDefined hedge :)

theorem started_of_step {s t : State} (h : step s = .next t)
    (hdef : s.accDefined = true ∨ startsMessage s.nextInputs = true) : t.started = true := by
  rw [State.started, clear_of_step h, step_accDefined h]
  simpa using hdef

/-! ## Steps that start a message -/

/-- Two starting edges that read alike have the same outcome: both load ACC. -/
theorem clockEdge_congr_of_startsMessage {i j : Inputs} (hi : startsMessage i = true) (hj : startsMessage j = true)
    (hread : i.readCrc = j.readCrc) (s : State) : clockEdge i s = clockEdge j s := by
  have hedge : commandEdge i = commandEdge j := by
    funext t; rw [commandEdge_of_startsMessage hi, commandEdge_of_startsMessage hj]
  rw [clockEdge, clockEdge, hread, hedge]

theorem step_congr_of_startsMessage {i j : Inputs} (hi : startsMessage i = true) (hj : startsMessage j = true)
    (hread : i.readCrc = j.readCrc) (s : State) (rest : List Inputs) :
    step { s with inputs := i :: rest } = step { s with inputs := j :: rest } := by
  rw [step_cons _ i rest rfl, step_cons _ j rest rfl]
  exact clockEdge_congr_of_startsMessage hi hj hread _

/-! ## An idle host -/

/-- An exhausted list has nothing to take. -/
theorem dropInputs_of_nil {s : State} (h : s.inputs = []) : s.dropInputs = s := by
  rw [State.dropInputs, h, List.tail_nil, ← h]

theorem step_of_nil {s : State} (h : s.clear = true) (hin : s.inputs = []) : step s = .next s := by
  have hidle : s.nextInputs = idleInputs := nextInputs_nil s hin
  rw [step_of_noRead h (by rw [hidle]; rfl), hidle, dropInputs_of_nil hin,
    commandEdge_of_decode rfl (decode_op00 rfl), exec_nop]

/-! ## The obligations -/

/-- Settles O54: a step that goes through keeps the records, and ACC once defined. -/
theorem startedIsKept : Obligations.StartedIsKept := by
  unfold Obligations.StartedIsKept
  intro s t hs hstep
  obtain ⟨_, hdef⟩ : s.clear = true ∧ s.accDefined = true := by simpa [State.started] using hs
  exact started_of_step hstep (.inl hdef)

/-- Settles O55: a starting step defines ACC, and one that goes through has nothing on record. -/
theorem startedAfterReset : Obligations.StartedAfterReset := by
  unfold Obligations.StartedAfterReset
  exact ⟨by decide, fun s t hstart hstep => started_of_step hstep (.inr hstart)⟩

/-- Settles O46: the step goes through, and the host's part of it notes ACC. -/
theorem readReturnsAcc : Obligations.ReadReturnsAcc := by
  unfold Obligations.ReadReturnsAcc
  intro s c hclear hacc hread hcmd
  exact ⟨_, step_of_notReserved hclear (readAllowed_of_acc_val hacc) hcmd, afterHost_observed_of_read hread hacc⟩

/-- Settles O51: `step_cases` names the deciding condition of each of the three outcomes. -/
theorem stepStopsExactlyWhen : Obligations.StepStopsExactlyWhen := by
  unfold Obligations.StepStopsExactlyWhen
  intro s hclear
  rw [← readAllowed_eq_false_iff]
  rcases step_cases hclear with ⟨hread, e⟩ | ⟨hread, hr, hop, e⟩ | ⟨hread, hcmd, e⟩
  · exact ⟨⟨fun _ => hread, fun _ => ⟨_, e⟩⟩, by simp [e, hread]⟩
  · simp [e, hread, hr, hop]
  · simp [e, hread, notReserved_iff.mp hcmd]

/-- Settles O52: the next state is the one after the host's part, but for ACC. -/
theorem stepFrame : Obligations.StepFrame := by
  unfold Obligations.StepFrame
  intro s t hstep
  obtain ⟨a, rfl⟩ : ∃ a, t = s.afterHost.setAcc a := ⟨_, step_setAcc hstep⟩
  refine ⟨rfl, rfl, rfl, fun hread => ?noRead, fun hread => ?read, fun hr hop => ?nop⟩
  case noRead => rw [setAcc_observed, afterHost_of_noRead hread, dropInputs_observed]
  case read =>
    obtain ⟨_, hallowed, _⟩ := step_eq_next.mp hstep
    cases hacc : s.acc with
    | undef => exact absurd (readAllowed_eq_false_iff.mpr ⟨hread, hacc⟩) (by simp [hallowed])
    | val c => exact ⟨c, rfl, afterHost_observed_of_read hread hacc⟩
  case nop => rw [step_acc hstep, accAfter_of_nop hr hop]

/-- Settles O11: without a reset the command's edge is `exec` of the decoded word, on the state after the host's
part. -/
theorem stepRunsDecodedCommand : Obligations.StepRunsDecodedCommand := by
  unfold Obligations.StepRunsDecodedCommand
  refine ⟨fun s hclear hr hread => ?_, fun s c hclear hr hread hacc => ?_⟩
  · rw [step_of_noRead hclear hread, commandEdge_of_decode hr rfl]
    rfl
  · have hhost : s.afterHost = { s with inputs := s.inputs.tail, observed := s.observed ++ [c] } := by
      simp [State.afterHost, hread, hacc, State.dropInputs]
    rw [step_eq_commandEdge hclear (readAllowed_of_acc_val hacc), commandEdge_of_decode hr rfl, hhost]

/-- Settles O14: under reset every edge is the loading of ACC, that of a reserved word too. -/
theorem resetIgnoresCommand : Obligations.ResetIgnoresCommand := by
  unfold Obligations.ResetIgnoresCommand
  refine ⟨fun s i j rest hi hj hread => ?_, fun s data rest hclear hin => ?_⟩
  · exact step_congr_of_startsMessage (startsMessage_iff.mpr (.inl hi)) (startsMessage_iff.mpr (.inl hj)) hread s rest
  · exact ⟨_, (resetStepLoadsAcc s _ data rest hclear hin).1, (clear_iff.mp hclear).1⟩

/-- Settles O15: reset and INIT are the two ways to start a message, and starting edges agree. -/
theorem resetEqualsInit : Obligations.ResetEqualsInit := by
  unfold Obligations.ResetEqualsInit
  intro s i j rest hi _ hop hread
  have hi' : startsMessage i = true := startsMessage_iff.mpr (.inl hi)
  have hj' : startsMessage j = true := startsMessage_iff.mpr (.inr hop)
  exact ⟨step_congr_of_startsMessage hi' hj' hread s rest, hi', hj'⟩

/-- Settles O18: the idle host presents NOP, and there is no record to take. -/
theorem idleHostPresentsNop : Obligations.IdleHostPresentsNop := by
  unfold Obligations.IdleHostPresentsNop
  exact fun s => step_of_nil

/-- Settles O24: the next state of a command differs in ACC alone, and that of NOP not even there. -/
theorem commandFrame : Obligations.CommandFrame := by
  unfold Obligations.CommandFrame
  intro i s t hexec
  obtain ⟨a, rfl⟩ : ∃ a, t = s.setAcc a := ⟨_, exec_setAcc hexec⟩
  refine ⟨rfl, rfl, rfl, rfl, ?_⟩
  rintro rfl
  exact congrArg State.acc (Host.Outcome.next.inj hexec).symm

end Sys2Proof.Machine
end

/-! # Proofs: the host's duties (70_reset_and_hazards.md sections 2 and 3) -/

section
namespace Sys2Proof.Machine

/-- The duties at the first of the coming steps, and what is left of them after it. -/
theorem dutiesKept_cons {defined : Bool} {i : Inputs} {rest : List Inputs} :
    dutiesKept defined (i :: rest) = true ↔
      (i.readCrc = false ∨ defined = true) ∧ (i.rst = true ∨ i.op ≠ 0b11#2) ∧
      dutiesKept (defined || startsMessage i) rest = true := by
  simp [dutiesKept, and_assoc]

/-- The step of a host that keeps its duties goes through and leaves such a host. -/
theorem step_of_dutiesKept {s : State} (hclear : s.clear = true) (hduty : dutiesKept s.accDefined s.inputs = true) :
    ∃ t, step s = .next t ∧ t.clear = true ∧ dutiesKept t.accDefined t.inputs = true := by
  cases hin : s.inputs with
  | nil => exact ⟨s, step_of_nil hclear hin, hclear, hduty⟩
  | cons i rest =>
    have hnext : s.nextInputs = i := nextInputs_cons s i rest hin
    obtain ⟨hread, hcmd, hrest⟩ := dutiesKept_cons.mp (hin ▸ hduty)
    have hallowed : s.readAllowed = true := by simpa [State.readAllowed, hnext] using hread
    have hstep := step_of_notReserved hclear hallowed (hnext.symm ▸ hcmd)
    refine ⟨_, hstep, clear_of_step hstep, ?_⟩
    rw [step_accDefined hstep, step_inputs hstep, hnext, hin]
    exact hrest

/-- The invariant carries over to any number of steps. -/
theorem runSteps_of_dutiesKept (n : Nat) {s : State} (hclear : s.clear = true)
    (hduty : dutiesKept s.accDefined s.inputs = true) : ∃ t, runSteps n s = .next t ∧ t.clear = true := by
  induction n generalizing s with
  | zero => exact ⟨s, rfl, hclear⟩
  | succ n ih =>
    obtain ⟨u, hstep, hclear_u, hduty_u⟩ := step_of_dutiesKept hclear hduty
    obtain ⟨t, hrun, hclear_t⟩ := ih hclear_u hduty_u
    exact ⟨t, runSteps_succ_eq_next.mpr ⟨u, hstep, hrun⟩, hclear_t⟩

/-! ## The obligations -/

/-- Settles O59, by cases on the host's list: an idle host changes nothing, and a first record of a dutiful host
neither reads an undefined ACC nor presents a reserved word. -/
theorem dutifulIsKept : Obligations.DutifulIsKept := by
  unfold Obligations.DutifulIsKept
  exact fun s => step_of_dutiesKept

/-- Settles O60: both records are clear and the list of inputs is empty in the two closed states. -/
theorem dutifulAtReset : Obligations.DutifulAtReset := by
  unfold Obligations.DutifulAtReset
  decide

/-- Settles O56, by induction on the number of steps, each of which keeps the invariant of O59. -/
theorem dutifulHostNeverStops : Obligations.DutifulHostNeverStops := by
  unfold Obligations.DutifulHostNeverStops
  exact fun s hclear hduty n => runSteps_of_dutiesKept n hclear hduty

end Sys2Proof.Machine
end

/-! # Proofs: the run that keeps its stops on record (60_exceptions.md section 1) -/

section
namespace Sys2Proof.Machine

/-! ## The host's read, put on record -/

/-- A recorded read leaves everything but the fault record and the readings alone. -/
theorem recordOutcome_sampleCrc_frame (read : Bool) (s : State) :
    (recordOutcome s (sampleCrc read s)).acc = s.acc ∧
    (recordOutcome s (sampleCrc read s)).refusalMark = s.refusalMark ∧
    (recordOutcome s (sampleCrc read s)).inputs = s.inputs := by
  rcases sampleCrc_cases read s with ⟨_, e⟩ | ⟨_, _, e⟩ | ⟨c, _, _, e⟩
  · rw [e]; exact ⟨rfl, rfl, rfl⟩
  · rw [e]; exact ⟨rfl, rfl, rfl⟩
  · rw [e]; exact ⟨rfl, rfl, rfl⟩

theorem recordOutcome_sampleCrc_faultRecord (read : Bool) (s : State) :
    (recordOutcome s (sampleCrc read s)).faultRecord =
      if read = true ∧ s.acc = .undef then some (s.faultRecord.getD .undefObserved) else s.faultRecord := by
  rcases sampleCrc_cases read s with ⟨hread, e⟩ | ⟨hread, hacc, e⟩ | ⟨c, _, hacc, e⟩
  · rw [e, if_neg (by simp [hread])]; rfl
  · rw [e, if_pos ⟨hread, hacc⟩]; rfl
  · rw [e, if_neg (by simp [hacc])]; rfl

/-! ## The command's edge, put on record -/

/-- A recorded edge writes ACC as the ports say and, for a reserved word without a reset, the mark. -/
theorem recordOutcome_commandEdge (i : Inputs) (s : State) :
    recordOutcome s (commandEdge i s) =
      { s with
        acc := accAfter s.acc i
        refusalMark :=
          if i.rst = false ∧ i.op = 0b11#2 then some (s.refusalMark.getD (.reserved i.command))
          else s.refusalMark } := by
  by_cases h : i.rst = false ∧ i.op = 0b11#2
  · obtain ⟨hr, hop⟩ := h
    rw [commandEdge_of_op11 hr hop, recordOutcome_refused, accAfter_of_op11 hr hop, if_pos ⟨hr, hop⟩]
  · rw [commandEdge_of_notReserved (notReserved_iff.mpr h), recordOutcome_next, if_neg h]
    rfl

/-! ## The step of the recording run, field by field -/

/-- ACC after a recorded step is what 41_commands.md R90 makes of it, whatever was put on record. -/
theorem recordedEdge_acc (i : Inputs) (s : State) : (recordedEdge i s).acc = accAfter s.acc i := by
  obtain ⟨hacc, _, _⟩ := recordOutcome_sampleCrc_frame i.readCrc s
  rw [recordedEdge, recordOutcome_commandEdge, hacc]

theorem recordedEdge_refusalMark (i : Inputs) (s : State) :
    (recordedEdge i s).refusalMark =
      if i.rst = false ∧ i.op = 0b11#2 then some (s.refusalMark.getD (.reserved i.command))
      else s.refusalMark := by
  obtain ⟨_, hmark, _⟩ := recordOutcome_sampleCrc_frame i.readCrc s
  rw [recordedEdge, recordOutcome_commandEdge, hmark]

theorem recordedEdge_faultRecord (i : Inputs) (s : State) :
    (recordedEdge i s).faultRecord =
      if i.readCrc = true ∧ s.acc = .undef then some (s.faultRecord.getD .undefObserved) else s.faultRecord := by
  rw [recordedEdge, recordOutcome_commandEdge, recordOutcome_sampleCrc_faultRecord]

theorem recordedEdge_inputs (i : Inputs) (s : State) : (recordedEdge i s).inputs = s.inputs := by
  obtain ⟨_, _, hin⟩ := recordOutcome_sampleCrc_frame i.readCrc s
  rw [recordedEdge, recordOutcome_commandEdge, hin]

theorem recordedEdge_refusalMark_of_notReserved {i : Inputs} (h : i.rst = true ∨ i.op ≠ 0b11#2) (s : State) :
    (recordedEdge i s).refusalMark = s.refusalMark := by
  rw [recordedEdge_refusalMark, if_neg (notReserved_iff.mp h)]

/-- A recorded step that starts a message loads ACC and leaves the mark (10_state.md R33). -/
theorem recordedEdge_of_startsMessage {i : Inputs} (hstart : startsMessage i = true)
    (hcmd : i.rst = true ∨ i.op ≠ 0b11#2) (s : State) :
    (recordedEdge i s).acc = .val Config.initialAcc ∧ crcPort (recordedEdge i s) = .val Config.initialAcc ∧
    (recordedEdge i s).refusalMark = s.refusalMark := by
  have hacc : (recordedEdge i s).acc = .val Config.initialAcc := by
    rw [recordedEdge_acc, accAfter_of_startsMessage hstart]
  exact ⟨hacc, hacc, recordedEdge_refusalMark_of_notReserved hcmd s⟩

/-! ## A record that is made stays -/

theorem recordedEdge_keeps_refusalMark {s : State} {r : Refusal} (h : s.refusalMark = some r) (i : Inputs) :
    (recordedEdge i s).refusalMark = some r := by
  rw [recordedEdge_refusalMark, h, Option.getD_some, ite_self]

theorem recordedEdge_keeps_faultRecord {s : State} {f : Fault} (h : s.faultRecord = some f) (i : Inputs) :
    (recordedEdge i s).faultRecord = some f := by
  rw [recordedEdge_faultRecord, h, Option.getD_some, ite_self]

/-! ## The step that stops, where something is on record -/

/-- A marked state is refused at every step, with a fault on record too. -/
theorem step_of_refusalMark {s : State} {r : Refusal} (h : s.refusalMark = some r) : step s = .refused r := by
  simp [step, stepHost, clockEdge, checkRecords, h]

/-- No run of one or more steps goes on from a state with something on record. -/
theorem clear_of_runSteps_succ {s t : State} {n : Nat} (h : runSteps (n + 1) s = .next t) : s.clear = true := by
  obtain ⟨u, hstep, _⟩ := runSteps_succ_eq_next.mp h
  exact (step_eq_next.mp hstep).1

/-! ## The obligations -/

/-- Settles O48: the fault is that of a forbidden read, a fault on record stays, and a run needs a clear state to
go on. -/
theorem undefinedReadFaults : Obligations.UndefinedReadFaults := by
  unfold Obligations.UndefinedReadFaults
  refine ⟨fun s hclear hacc hread => ?_, fun s i hacc hread => ?_, fun s i f hf => ?_, fun s t f n hf hrun => ?_⟩
  · exact step_forbidden_read hclear (readAllowed_eq_false_iff.mpr ⟨hread, hacc⟩)
  · cases hf : (recordedEdge i s).faultRecord with
    | none => simp [recordedEdge_faultRecord, hacc, hread] at hf
    | some f => cases f; rfl
  · exact recordedEdge_keeps_faultRecord hf i
  · obtain ⟨_, hnone⟩ := clear_iff.mp (clear_of_runSteps_succ hrun)
    exact absurd (hf.symm.trans hnone) (by simp)

/-- Settles O49: by `recordedEdge_refusalMark`, which says when the mark is set and that it is then kept. -/
theorem reservedMarkStays : Obligations.ReservedMarkStays := by
  unfold Obligations.ReservedMarkStays
  refine ⟨fun s i hmark hr hop => ?_, fun s i r hmark => recordedEdge_keeps_refusalMark hmark i,
    fun s r => step_of_refusalMark, fun s i hr => recordedEdge_refusalMark_of_notReserved (.inl hr) s⟩
  rw [recordedEdge_refusalMark, if_pos ⟨hr, hop⟩, hmark]
  rfl

/-- Settles O50: the ports leave no defined value at a reserved word. -/
theorem reservedWordLeavesNoValue : Obligations.ReservedWordLeavesNoValue := by
  unfold Obligations.ReservedWordLeavesNoValue
  intro s i hr hop
  rw [recordedEdge_acc, accAfter_of_op11 hr hop]

/-- Settles O17: reset and INIT both start a message, and neither is a reserved word. -/
theorem resetTable : Obligations.ResetTable := by
  unfold Obligations.ResetTable
  refine ⟨⟨rfl, rfl, rfl⟩, fun s i hr _ => ?_, fun s i _ hop _ => ?_⟩
  · exact recordedEdge_of_startsMessage (startsMessage_iff.mpr (.inl hr)) (.inl hr) s
  · exact recordedEdge_of_startsMessage (startsMessage_iff.mpr (.inr hop)) (.inr (by simp [hop])) s

end Sys2Proof.Machine
end

/-! # Proofs: the laws of the checksum (41_commands.md section 3, 30_encoding.md R70) -/

section
namespace Sys2Proof.Machine

/-! ## A difference in the register or in a byte reaches the checksum -/

theorem foldBytes_injective (bytes : List Byte) : Function.Injective fun c => foldBytes c bytes := by
  induction bytes with
  | nil => exact fun _ _ h => h
  | cons b bs ih => exact fun _ _ h => byteStep_left_injective b (ih h)

/-- Messages that differ in one byte at most have the same checksum only where that byte is the same. -/
theorem crc32Mpeg2_byte_injective (before after : List Byte) :
    Function.Injective fun b => crc32Mpeg2 (before ++ b :: after) := by
  intro b b' h
  have hfold : foldBytes (byteStep (crc32Mpeg2 before) b) after =
      foldBytes (byteStep (crc32Mpeg2 before) b') after := by
    simpa only [crc32Mpeg2_append, foldBytes_cons] using h
  exact byteStep_right_injective _ (foldBytes_injective after hfold)

/-- Flipping a bit of a byte changes the byte. -/
theorem xor_bit_ne (b : Byte) {k : Nat} (hk : k < 8) : b ^^^ (1#8 <<< k) ≠ b := by
  intro h
  have hbit := congrArg (·.getLsbD k) h
  simp [hk] at hbit

/-! ## The residue -/

/-- The four bytes of a register, most significant first, each meet themselves at its top and shift it out. -/
theorem foldBytes_bytesMsbFirst (c : Word) : foldBytes c (bytesMsbFirst c) = 0#32 := by
  have hbyte {k start : Nat} (h : start + k = 24) :
      byteStep (c <<< k) (c.extractLsb' start 8) = c <<< (k + 8) := by
    have htop : (c <<< k).extractLsb' 24 8 = c.extractLsb' start 8 := by
      rw [extractLsb'_word_shiftLeft (by omega) (by decide), Nat.sub_eq_of_eq_add h.symm]
    rw [← htop, byteStep_topByte, ← BitVec.shiftLeft_add]
  calc foldBytes c (bytesMsbFirst c)
      = byteStep (byteStep (byteStep (byteStep (c <<< 0) (c.extractLsb' 24 8)) (c.extractLsb' 16 8))
          (c.extractLsb' 8 8)) (c.extractLsb' 0 8) := by rw [BitVec.shiftLeft_zero]; rfl
    _ = c <<< 32 := by rw [hbyte rfl, hbyte rfl, hbyte rfl, hbyte rfl]
    _ = 0#32 := BitVec.shiftLeft_eq_zero (Nat.le_refl 32)

theorem crc32Mpeg2_append_own (message : List Byte) :
    crc32Mpeg2 (message ++ bytesMsbFirst (crc32Mpeg2 message)) = 0#32 := by
  rw [crc32Mpeg2_append, foldBytes_bytesMsbFirst]

/-! ## The steps of CRCMSG -/

theorem startsMessage_presentInstr_init : startsMessage (presentInstr .init) = true := by decide

/-- The steps after the INIT of CRCMSG give the message its bytes. -/
theorem messageBytes_updates (bytes : List Byte) :
    messageBytes ((bytes.map Instr.update).map presentInstr) = some bytes := by
  induction bytes with
  | nil => rfl
  | cons b bs ih =>
    have hdec : decode (presentInstr (.update b)).command = .update b := by
      rw [command_presentInstr, decode_encode_update]
    have hrst : (presentInstr (.update b)).rst = false := rfl
    rw [List.map_cons, List.map_cons, messageBytes, hrst, if_neg Bool.false_ne_true, hdec, ih]
    rfl

/-! ## The obligations -/

/-- Settles O38: the first part is a message's run, and the second goes on from the checksum it left in ACC. -/
theorem prefixChecksum : Obligations.PrefixChecksum := by
  unfold Obligations.PrefixChecksum
  intro s start tail₁ tail₂ rest bytes₁ bytes₂ hclear hread hin hstart hbytes₁ hbytes₂
  obtain ⟨t, hrun_t, hcrc_t, hsum, hin_t, hclear_t⟩ :=
    messageChecksum s start tail₁ (tail₂ ++ rest) bytes₁ hclear hread hin hstart hbytes₁
  have hacc_t : crcPort t = .val (crc32Mpeg2 bytes₁) := hsum ▸ hcrc_t
  obtain ⟨u, hrun_u, hacc_u, _, _⟩ := runSteps_of_messageBytes hclear_t hacc_t hin_t hbytes₂
  exact ⟨t, u, hrun_t, hacc_t, hrun_u, by rw [crc32Mpeg2_append]; exact hacc_u⟩

/-- Settles O40: the encoded commands of CRCMSG are a starting step and a message of its bytes. -/
theorem crcmsgComputesChecksum : Obligations.CrcmsgComputesChecksum := by
  unfold Obligations.CrcmsgComputesChecksum
  intro s bytes rest hclear hin
  let updates := (bytes.map Instr.update).map presentInstr
  have hin' : s.inputs = presentInstr .init :: (updates ++ rest) := hin
  have hread : s.readAllowed = true := readAllowed_of_noRead (by rw [nextInputs_cons s _ _ hin']; rfl)
  obtain ⟨t, hrun, hcrc, hsum, hin_t, _⟩ :=
    messageChecksum s _ updates rest bytes hclear hread hin' startsMessage_presentInstr_init
      (messageBytes_updates bytes)
  have hlen : updates.length = bytes.length := by simp [updates]
  exact ⟨t, hlen ▸ hrun, hsum ▸ hcrc, hin_t⟩

/-- Settles O42: the checksum is injective in each single byte, and a flipped bit is another byte. -/
theorem singleBitFlipChangesChecksum : Obligations.SingleBitFlipChangesChecksum := by
  unfold Obligations.SingleBitFlipChangesChecksum
  intro before after b k hk h
  exact xor_bit_ne b hk (crc32Mpeg2_byte_injective before after h).symm

/-- Settles O43: `foldBytes_bytesMsbFirst` from the message's checksum, and that of the empty message is four
bytes `0xFF`. -/
theorem residueIsZero : Obligations.ResidueIsZero := by
  unfold Obligations.ResidueIsZero
  exact ⟨crc32Mpeg2_append_own, crc32Mpeg2_append_own []⟩

end Sys2Proof.Machine
end

/-! # Proofs: runs of steps (41_commands.md sections 2 and 3, 60_exceptions.md section 1) -/

section
namespace Sys2Proof.Machine

/-! ## An edge does not see the host's list -/

theorem checkRecords_setInputs (s : State) (is : List Inputs) :
    checkRecords { s with inputs := is } = andThen (checkRecords s) fun t => .next { t with inputs := is } := by
  cases hm : s.refusalMark <;> cases hf : s.faultRecord <;> simp [checkRecords, hm, hf]

theorem sampleCrc_setInputs (read : Bool) (s : State) (is : List Inputs) :
    sampleCrc read { s with inputs := is } =
      andThen (sampleCrc read s) fun t => .next { t with inputs := is } := by
  cases read
  · rfl
  · cases hacc : s.acc <;> simp [sampleCrc, crcPort, hacc]

theorem commandEdge_setInputs (i : Inputs) (s : State) (is : List Inputs) :
    commandEdge i { s with inputs := is } =
      andThen (commandEdge i s) fun t => .next { t with inputs := is } := by
  by_cases h : i.rst = false ∧ i.op = 0b11#2
  · obtain ⟨hr, hop⟩ := h
    rw [commandEdge_of_op11 hr hop, commandEdge_of_op11 hr hop, andThen_refused]
  · have hcmd := notReserved_iff.mpr h
    rw [commandEdge_of_notReserved hcmd, commandEdge_of_notReserved hcmd, andThen_next]
    rfl

/-- The list of a state passes through an edge untouched and unseen. -/
theorem clockEdge_setInputs (i : Inputs) (s : State) (is : List Inputs) :
    clockEdge i { s with inputs := is } = andThen (clockEdge i s) fun t => .next { t with inputs := is } := by
  simp only [clockEdge, checkRecords_setInputs, andThen_assoc, andThen_next, sampleCrc_setInputs,
    commandEdge_setInputs]

/-- A run over a list is an edge with its first record and then the run over the others. -/
theorem runSteps_cons (n : Nat) (i : Inputs) (is : List Inputs) (s : State) :
    runSteps (n + 1) { s with inputs := i :: is } =
      andThen (clockEdge i s) fun t => runSteps n { t with inputs := is } := by
  rw [runSteps, step_cons _ i is rfl]
  exact (congrArg (andThen · (runSteps n)) (clockEdge_setInputs i s is)).trans (andThen_assoc _ _ _)

/-! ## Idle steps -/

/-- An idle step is the edge that gives the state back. -/
theorem clockEdge_of_isIdle {i : Inputs} (h : isIdle i = true) {s : State} (hclear : s.clear = true) :
    clockEdge i s = .next s := by
  obtain ⟨⟨hr, hread⟩, hdec⟩ : (i.rst = false ∧ i.readCrc = false) ∧ decode i.command = .nop := by
    simpa [isIdle] using h
  rw [clockEdge_of_noRead hclear hread, commandEdge_of_decode hr hdec, exec_nop]

theorem clear_of_clockEdge {i : Inputs} {s t : State} (h : clockEdge i s = .next t) : t.clear = true := by
  obtain ⟨hclear, u, hsample, hedge⟩ := clockEdge_eq_next.mp h
  rw [commandEdge_setAcc hedge, clear_setAcc]
  rcases sampleCrc_cases i.readCrc s with ⟨_, e⟩ | ⟨_, _, e⟩ | ⟨c, _, _, e⟩
  · rw [e] at hsample; cases hsample; exact hclear
  · rw [e] at hsample; cases hsample
  · rw [e] at hsample; cases hsample; exact hclear

/-- Two continuations that agree on clear states agree after an edge, which leaves no other. -/
theorem andThen_clockEdge_congr {f g : State → StepOutcome} (h : ∀ t : State, t.clear = true → f t = g t)
    (i : Inputs) (s : State) : andThen (clockEdge i s) f = andThen (clockEdge i s) g := by
  cases hedge : clockEdge i s with
  | next t => exact h t (clear_of_clockEdge hedge)
  | fault r => rfl
  | refused r => rfl

/-! ## A run from an undefined ACC -/

/-- NOPs and UPDATEs without a read all go through from an undefined ACC, and leave it so. -/
theorem runSteps_of_undef {is rest : List Inputs} {s : State} (hclear : s.clear = true) (hacc : s.acc = .undef)
    (hin : s.inputs = is ++ rest)
    (his : ∀ i ∈ is, i.rst = false ∧ i.readCrc = false ∧ (i.op = 0b00#2 ∨ i.op = 0b10#2)) :
    ∃ t, runSteps is.length s = .next t ∧ t.acc = .undef ∧ t.clear = true := by
  induction is generalizing s with
  | nil => exact ⟨s, rfl, hacc, hclear⟩
  | cons i is ih =>
    obtain ⟨⟨hr, hread, hop⟩, his'⟩ := List.forall_mem_cons.mp his
    have hnext : s.nextInputs = i := nextInputs_cons s i _ hin
    have hafter : accAfter s.acc i = .undef := by
      rcases hop with hop | hop
      · rw [accAfter_of_nop hr hop, hacc]
      · rw [accAfter_of_update hr hop, hacc, update_undef]
    have hcmd : i.rst = true ∨ i.op ≠ 0b11#2 := .inr (by rcases hop with hop | hop <;> simp [hop])
    have hstep := step_of_notReserved hclear (readAllowed_of_noRead (by rw [hnext, hread])) (hnext.symm ▸ hcmd)
    obtain ⟨t, hrun, hacc_t, hclear_t⟩ :=
      ih (clear_of_step hstep) (by rw [setAcc_acc, hnext, hafter]) (by rw [step_inputs hstep, hin]; rfl) his'
    exact ⟨t, runSteps_succ_eq_next.mpr ⟨_, hstep, hrun⟩, hacc_t, hclear_t⟩

/-! ## A starting step and what ACC held before -/

theorem checkRecords_setAcc (s : State) (a : Acc) :
    checkRecords (s.setAcc a) = andThen (checkRecords s) fun t => .next (t.setAcc a) := by
  cases hm : s.refusalMark <;> cases hf : s.faultRecord <;> simp [checkRecords, hm, hf]

/-- A starting edge without a read overwrites ACC, or stops by the records alone. -/
theorem clockEdge_setAcc_of_startsMessage {i : Inputs} (hstart : startsMessage i = true)
    (hread : i.readCrc = false) (s : State) (a : Acc) : clockEdge i (s.setAcc a) = clockEdge i s := by
  simp only [clockEdge, checkRecords_setAcc, andThen_assoc, andThen_next, hread, sampleCrc_false,
    commandEdge_of_startsMessage hstart, State.loadInitial, setAcc_setAcc]

theorem step_setAcc_of_startsMessage {s : State} (hstart : startsMessage s.nextInputs = true)
    (hread : s.nextInputs.readCrc = false) (a : Acc) : step (s.setAcc a) = step s :=
  clockEdge_setAcc_of_startsMessage hstart hread s.dropInputs a

/-! ## The stopping run and the recording run -/

/-- With nothing on record before and after it, a recorded step made no forbidden read and had no reserved word. -/
theorem clear_recordedEdge_iff {i : Inputs} {s : State} :
    (recordedEdge i s).clear = true ↔
      s.clear = true ∧ ¬ (i.readCrc = true ∧ s.acc = .undef) ∧ ¬ (i.rst = false ∧ i.op = 0b11#2) := by
  rw [clear_iff, clear_iff, recordedEdge_refusalMark, recordedEdge_faultRecord]
  by_cases hword : i.rst = false ∧ i.op = 0b11#2 <;> by_cases hread : i.readCrc = true ∧ s.acc = .undef <;>
    simp [hword, hread]

/-- The two steps agree: one goes through exactly where the other has nothing to record. -/
theorem clockEdge_eq_next_iff_recordedEdge {i : Inputs} {s t : State} :
    clockEdge i s = .next t ↔ recordedEdge i s = t ∧ t.clear = true := by
  constructor
  · intro h
    obtain ⟨_, u, hsample, hedge⟩ := clockEdge_eq_next.mp h
    refine ⟨?_, clear_of_clockEdge h⟩
    rw [recordedEdge, hsample, recordOutcome_next, hedge, recordOutcome_next]
  · rintro ⟨rfl, hclear⟩
    obtain ⟨hclear_s, hread, hword⟩ := clear_recordedEdge_iff.mp hclear
    obtain ⟨u, hsample⟩ : ∃ u, sampleCrc i.readCrc s = .next u := by
      rcases sampleCrc_cases i.readCrc s with ⟨_, e⟩ | ⟨hr, hacc, _⟩ | ⟨c, _, _, e⟩
      · exact ⟨_, e⟩
      · exact absurd ⟨hr, hacc⟩ hread
      · exact ⟨_, e⟩
    refine clockEdge_eq_next.mpr ⟨hclear_s, u, hsample, ?_⟩
    rw [recordedEdge, hsample, recordOutcome_next, commandEdge_of_notReserved (notReserved_iff.mpr hword),
      recordOutcome_next]

@[simp] theorem recordedRun_cons (i : Inputs) (is : List Inputs) (s : State) :
    recordedRun (i :: is) s = recordedRun is (recordedEdge i s) := rfl

/-- A recording run that ends with nothing on record began so. -/
theorem clear_of_clear_recordedRun {is : List Inputs} {s : State} (h : (recordedRun is s).clear = true) :
    s.clear = true := by
  induction is generalizing s with
  | nil => exact h
  | cons i is ih => exact (clear_recordedEdge_iff.mp (ih h)).1

/-- Both runs over a list, from a state that holds no list of its own. -/
theorem runSteps_eq_next_iff_recordedRun {is : List Inputs} {s t : State} (hclear : s.clear = true)
    (hnil : s.inputs = []) :
    runSteps is.length { s with inputs := is } = .next t ↔ recordedRun is s = t ∧ t.clear = true := by
  induction is generalizing s with
  | nil =>
    have hs : { s with inputs := [] } = s := by rw [← hnil]
    rw [hs]
    constructor
    · intro h; cases h; exact ⟨rfl, hclear⟩
    · rintro ⟨rfl, _⟩; rfl
  | cons i is ih =>
    have hnil' : (recordedEdge i s).inputs = [] := (recordedEdge_inputs i s).trans hnil
    rw [List.length_cons, runSteps_cons, andThen_eq_next, recordedRun_cons]
    constructor
    · rintro ⟨u, hedge, hrun⟩
      obtain ⟨rfl, hclear_u⟩ := clockEdge_eq_next_iff_recordedEdge.mp hedge
      exact (ih hclear_u hnil').mp hrun
    · rintro ⟨rfl, hclear_t⟩
      have hclear_u : (recordedEdge i s).clear = true := clear_of_clear_recordedRun hclear_t
      exact ⟨_, clockEdge_eq_next_iff_recordedEdge.mpr ⟨rfl, hclear_u⟩, (ih hclear_u hnil').mpr ⟨rfl, hclear_t⟩⟩

/-! ## The obligations -/

/-- Settles O41, by induction on the list: an idle first record gives the state back, and any other is the same
edge in both runs. -/
theorem idleStepsDropOut : Obligations.IdleStepsDropOut := by
  unfold Obligations.IdleStepsDropOut
  intro s is hclear
  induction is generalizing s with
  | nil => rfl
  | cons i is ih =>
    rw [List.length_cons, runSteps_cons]
    cases hidle : isIdle i
    · rw [List.filter_cons_of_pos (by simp [hidle]), List.length_cons, runSteps_cons]
      exact andThen_clockEdge_congr ih i s
    · rw [List.filter_cons_of_neg (by simp [hidle]), clockEdge_of_isIdle hidle hclear, andThen_next]
      exact ih s hclear

/-- Settles O47: the run keeps ACC undefined, and a read of it is forbidden. -/
theorem accUndefinedUntilStarted : Obligations.AccUndefinedUntilStarted := by
  unfold Obligations.AccUndefinedUntilStarted
  refine ⟨rfl, fun s is rest hclear hacc hin his => ?_⟩
  obtain ⟨t, hrun, hacc_t, hclear_t⟩ := runSteps_of_undef hclear hacc hin his
  exact ⟨t, hrun, hacc_t,
    fun hread => step_forbidden_read hclear_t (readAllowed_eq_false_iff.mpr ⟨hread, hacc_t⟩)⟩

/-- Settles O57: the first step of both runs is the same outcome. -/
theorem startErasesPast : Obligations.StartErasesPast := by
  unfold Obligations.StartErasesPast
  intro s a a' n hstart hread
  have hstep : step (s.setAcc a) = step (s.setAcc a') := by
    rw [step_setAcc_of_startsMessage hstart hread, step_setAcc_of_startsMessage hstart hread]
  exact congrArg (andThen · (runSteps n)) hstep

/-- Settles O58, by induction on the list, over the agreement of the two steps. -/
theorem recordedRunAgrees : Obligations.RecordedRunAgrees := by
  unfold Obligations.RecordedRunAgrees
  exact fun s t is hclear => runSteps_eq_next_iff_recordedRun (s := { s with inputs := [] }) hclear rfl

end Sys2Proof.Machine
end
